-- ==== Sys2Proof/Word.lean ====
section
/-!
DEFINITION. The widths of the machine's values (rules R7, R17, R20) and nothing else: names for the
bit-vector types, and zero extension, the one widening the hardware has (R73: nothing is sign-extended).
-/

namespace Sys2Proof

/-- 8 bits: a general register, a timer, a byte of memory (R20). -/
abbrev Byte := BitVec 8

/-- 16 bits: an instruction word, `PC`, `I`, a stack entry (R20, R70). -/
abbrev Word := BitVec 16

/-- The 4-bit immediate `N` of `DXYN` (R71). -/
abbrev Nibble := BitVec 4

/-- The 12-bit address field `NNN` (R71). -/
abbrev Addr12 := BitVec 12

/-- The number of a general register, `V0` to `VF` (R21). -/
abbrev RegIx := Fin 16

/-- The number of a key, 0x0 to 0xF (R30). -/
abbrev KeyIx := Fin 16

/-- A column of the framebuffer, 0 to 63 (R151). -/
abbrev Col := Fin 64

/-- A row of the framebuffer, 0 to 31 (R151). -/
abbrev Row := Fin 32

/-- `zext_16(v)` (R18). -/
def zext16 (v : BitVec n) : Word := v.setWidth 16

end Sys2Proof
end

