-- ==== Sys2Proof/Syntax.lean ====
section
/-!
DEFINITION. The instructions: one constructor per row of spec/opcode_table.json, in its order (rules R2, R74).
Register fields are register numbers and immediates have the width of their field (R71, R73), so the only
ill-formed terms are the two words that `0NNN` does not have (WellFormed.lean). Ignored fields are kept
(`Y` of `8XY6` and `8XYE`, `NNN` of `0NNN`; R79), so that an instruction stands for exactly one word.
-/

namespace Sys2Proof

inductive Instr where
  /-- `00E0`: clear the framebuffer (R150). -/
  | cls
  /-- `00EE`: return from subroutine (R101). -/
  | ret
  /-- `0NNN`: the legacy machine-code call, a no-op (R102). -/
  | sys (nnn : Addr12)
  /-- `1NNN`: jump (R103). -/
  | jp (nnn : Addr12)
  /-- `2NNN`: call subroutine (R104). -/
  | call (nnn : Addr12)
  /-- `3XNN`: skip if `Vx` equals `NN` (R110). -/
  | seImm (x : RegIx) (nn : Byte)
  /-- `4XNN`: skip if `Vx` differs from `NN` (R111). -/
  | sneImm (x : RegIx) (nn : Byte)
  /-- `5XY0`: skip if `Vx` equals `Vy` (R112). -/
  | seReg (x y : RegIx)
  /-- `6XNN`: load immediate (R120). -/
  | ldImm (x : RegIx) (nn : Byte)
  /-- `7XNN`: add immediate (R121). -/
  | addImm (x : RegIx) (nn : Byte)
  /-- `8XY0`: copy register (R122). -/
  | ldReg (x y : RegIx)
  /-- `8XY1`: bitwise OR (R123). -/
  | orReg (x y : RegIx)
  /-- `8XY2`: bitwise AND (R124). -/
  | andReg (x y : RegIx)
  /-- `8XY3`: bitwise exclusive OR (R125). -/
  | xorReg (x y : RegIx)
  /-- `8XY4`: add registers with carry flag (R126). -/
  | addReg (x y : RegIx)
  /-- `8XY5`: subtract `Vy` from `Vx` with not-borrow flag (R127). -/
  | sub (x y : RegIx)
  /-- `8XY6`: shift `Vx` right by one, `Y` ignored (R128). -/
  | shr (x y : RegIx)
  /-- `8XY7`: subtract `Vx` from `Vy` with not-borrow flag (R129). -/
  | subn (x y : RegIx)
  /-- `8XYE`: shift `Vx` left by one, `Y` ignored (R130). -/
  | shl (x y : RegIx)
  /-- `9XY0`: skip if `Vx` differs from `Vy` (R113). -/
  | sneReg (x y : RegIx)
  /-- `ANNN`: load index (R140). -/
  | ldI (nnn : Addr12)
  /-- `BNNN`: jump with offset `V0` (R105). -/
  | jpV0 (nnn : Addr12)
  /-- `CXNN`: random byte masked (R131). -/
  | rnd (x : RegIx) (nn : Byte)
  /-- `DXYN`: draw sprite (R152). -/
  | drw (x y : RegIx) (n : Nibble)
  /-- `EX9E`: skip if key `Vx` is pressed (R160). -/
  | skp (x : RegIx)
  /-- `EXA1`: skip if key `Vx` is not pressed (R161). -/
  | sknp (x : RegIx)
  /-- `FX07`: read the delay timer (R162). -/
  | ldVxDt (x : RegIx)
  /-- `FX0A`: wait for a key press (R163). -/
  | ldVxK (x : RegIx)
  /-- `FX15`: set the delay timer (R164). -/
  | ldDtVx (x : RegIx)
  /-- `FX18`: set the sound timer (R165). -/
  | ldStVx (x : RegIx)
  /-- `FX1E`: add `Vx` to index (R141). -/
  | addI (x : RegIx)
  /-- `FX29`: point index at font glyph (R142). -/
  | ldF (x : RegIx)
  /-- `FX33`: store decimal digits (R143). -/
  | ldB (x : RegIx)
  /-- `FX55`: store registers `V0` to `Vx` (R144). -/
  | ldMemVx (x : RegIx)
  /-- `FX65`: load registers `V0` to `Vx` (R145). -/
  | ldVxMem (x : RegIx)
  deriving DecidableEq, Repr

/-- The `mnemonic` key of the instruction's row in spec/opcode_table.json (R81, R82). -/
def Instr.mnemonic : Instr → String
  | .cls => "CLS"
  | .ret => "RET"
  | .sys _ => "SYS"
  | .jp _ => "JP"
  | .call _ => "CALL"
  | .seImm _ _ => "SE_IMM"
  | .sneImm _ _ => "SNE_IMM"
  | .seReg _ _ => "SE_REG"
  | .ldImm _ _ => "LD_IMM"
  | .addImm _ _ => "ADD_IMM"
  | .ldReg _ _ => "LD_REG"
  | .orReg _ _ => "OR"
  | .andReg _ _ => "AND"
  | .xorReg _ _ => "XOR"
  | .addReg _ _ => "ADD_REG"
  | .sub _ _ => "SUB"
  | .shr _ _ => "SHR"
  | .subn _ _ => "SUBN"
  | .shl _ _ => "SHL"
  | .sneReg _ _ => "SNE_REG"
  | .ldI _ => "LD_I"
  | .jpV0 _ => "JP_V0"
  | .rnd _ _ => "RND"
  | .drw _ _ _ => "DRW"
  | .skp _ => "SKP"
  | .sknp _ => "SKNP"
  | .ldVxDt _ => "LD_VX_DT"
  | .ldVxK _ => "LD_VX_K"
  | .ldDtVx _ => "LD_DT_VX"
  | .ldStVx _ => "LD_ST_VX"
  | .addI _ => "ADD_I"
  | .ldF _ => "LD_F"
  | .ldB _ => "LD_B"
  | .ldMemVx _ => "LD_MEM_VX"
  | .ldVxMem _ => "LD_VX_MEM"

end Sys2Proof
end

