-- ==== Sys2Proof/Decode.lean ====
section
/-!
DEFINITION. From words to instructions and back: the fields of an instruction word (R71), the decoder by
family (R75), the opcode map as data and its first-match decoder (R74, R82), the encoder (R72), and the same
over bytes, high byte first (R57, R58, R70).
-/

namespace Sys2Proof

/-! ## Fields (R71) -/

/-- `w[15:12]`, the opcode family. -/
def fieldOp (w : Word) : Nat := (w.extractLsb' 12 4).toNat

/-- `w[11:8]`, the number of register `Vx`. -/
def fieldX (w : Word) : RegIx := (w.extractLsb' 8 4).toFin

/-- `w[7:4]`, the number of register `Vy`. -/
def fieldY (w : Word) : RegIx := (w.extractLsb' 4 4).toFin

/-- `w[3:0]`. -/
def fieldN (w : Word) : Nibble := w.extractLsb' 0 4

/-- `w[7:0]`. -/
def fieldNN (w : Word) : Byte := w.extractLsb' 0 8

/-- `w[11:0]`. -/
def fieldNNN (w : Word) : Addr12 := w.extractLsb' 0 12

/-! ## Decode (R75) -/

/-- Why bytes are no instruction. -/
inductive DecodeError where
  /-- Raised by the decoder on one of the 17488 illegal words (R77); the step takes the fatal error
  `UnsupportedOpcode` for it (safe: it is what the spec says happens). -/
  | unsupportedOpcode (w : Word)
  /-- Raised by `decodeBytes` on fewer than two bytes; no step meets it (safe: nothing runs). -/
  | truncated
  deriving DecidableEq, Repr

/-- Family 8: the sub-opcode is `N` (R75). -/
def decodeFamily8 (w : Word) : Except DecodeError Instr :=
  match (fieldN w).toNat with
  | 0x0 => .ok (.ldReg (fieldX w) (fieldY w))
  | 0x1 => .ok (.orReg (fieldX w) (fieldY w))
  | 0x2 => .ok (.andReg (fieldX w) (fieldY w))
  | 0x3 => .ok (.xorReg (fieldX w) (fieldY w))
  | 0x4 => .ok (.addReg (fieldX w) (fieldY w))
  | 0x5 => .ok (.sub (fieldX w) (fieldY w))
  | 0x6 => .ok (.shr (fieldX w) (fieldY w))
  | 0x7 => .ok (.subn (fieldX w) (fieldY w))
  | 0xE => .ok (.shl (fieldX w) (fieldY w))
  | _ => .error (.unsupportedOpcode w)

/-- Family E: the sub-opcode is `NN` (R75). -/
def decodeFamilyE (w : Word) : Except DecodeError Instr :=
  match (fieldNN w).toNat with
  | 0x9E => .ok (.skp (fieldX w))
  | 0xA1 => .ok (.sknp (fieldX w))
  | _ => .error (.unsupportedOpcode w)

/-- Family F: the sub-opcode is `NN` (R75). -/
def decodeFamilyF (w : Word) : Except DecodeError Instr :=
  match (fieldNN w).toNat with
  | 0x07 => .ok (.ldVxDt (fieldX w))
  | 0x0A => .ok (.ldVxK (fieldX w))
  | 0x15 => .ok (.ldDtVx (fieldX w))
  | 0x18 => .ok (.ldStVx (fieldX w))
  | 0x1E => .ok (.addI (fieldX w))
  | 0x29 => .ok (.ldF (fieldX w))
  | 0x33 => .ok (.ldB (fieldX w))
  | 0x55 => .ok (.ldMemVx (fieldX w))
  | 0x65 => .ok (.ldVxMem (fieldX w))
  | _ => .error (.unsupportedOpcode w)

/-- Rule R75: by family, every one of the 65536 words to one instruction or to `unsupportedOpcode`. The last
arm is never reached: a family is below 16. -/
def decodeWord (w : Word) : Except DecodeError Instr :=
  match fieldOp w with
  | 0x0 => if w = 0x00E0#16 then .ok .cls else if w = 0x00EE#16 then .ok .ret else .ok (.sys (fieldNNN w))
  | 0x1 => .ok (.jp (fieldNNN w))
  | 0x2 => .ok (.call (fieldNNN w))
  | 0x3 => .ok (.seImm (fieldX w) (fieldNN w))
  | 0x4 => .ok (.sneImm (fieldX w) (fieldNN w))
  | 0x5 => if fieldN w = 0x0#4 then .ok (.seReg (fieldX w) (fieldY w)) else .error (.unsupportedOpcode w)
  | 0x6 => .ok (.ldImm (fieldX w) (fieldNN w))
  | 0x7 => .ok (.addImm (fieldX w) (fieldNN w))
  | 0x8 => decodeFamily8 w
  | 0x9 => if fieldN w = 0x0#4 then .ok (.sneReg (fieldX w) (fieldY w)) else .error (.unsupportedOpcode w)
  | 0xA => .ok (.ldI (fieldNNN w))
  | 0xB => .ok (.jpV0 (fieldNNN w))
  | 0xC => .ok (.rnd (fieldX w) (fieldNN w))
  | 0xD => .ok (.drw (fieldX w) (fieldY w) (fieldN w))
  | 0xE => decodeFamilyE w
  | 0xF => decodeFamilyF w
  | _ => .error (.unsupportedOpcode w)

/-! ## The opcode map as data (R74, R81, R82) -/

/-- One row of the opcode map: its names, and the words it selects, `w &&& mask = value`. -/
structure OpcodeRow where
  mnemonic : String
  pattern  : String
  assembly : String
  mask     : Word
  value    : Word
  build    : Word → Instr

/-- Families 0 to 5 of the opcode map, in its order (R74). -/
def opcodeRows0to5 : List OpcodeRow := [
  ⟨"CLS", "00E0", "CLS", 0xFFFF, 0x00E0, fun _ => .cls⟩,
  ⟨"RET", "00EE", "RET", 0xFFFF, 0x00EE, fun _ => .ret⟩,
  ⟨"SYS", "0NNN", "SYS nnn", 0xF000, 0x0000, fun w => .sys (fieldNNN w)⟩,
  ⟨"JP", "1NNN", "JP nnn", 0xF000, 0x1000, fun w => .jp (fieldNNN w)⟩,
  ⟨"CALL", "2NNN", "CALL nnn", 0xF000, 0x2000, fun w => .call (fieldNNN w)⟩,
  ⟨"SE_IMM", "3XNN", "SE Vx, nn", 0xF000, 0x3000, fun w => .seImm (fieldX w) (fieldNN w)⟩,
  ⟨"SNE_IMM", "4XNN", "SNE Vx, nn", 0xF000, 0x4000, fun w => .sneImm (fieldX w) (fieldNN w)⟩,
  ⟨"SE_REG", "5XY0", "SE Vx, Vy", 0xF00F, 0x5000, fun w => .seReg (fieldX w) (fieldY w)⟩ ]

/-- Families 6 to 8 of the opcode map, in its order (R74). -/
def opcodeRows6to8 : List OpcodeRow := [
  ⟨"LD_IMM", "6XNN", "LD Vx, nn", 0xF000, 0x6000, fun w => .ldImm (fieldX w) (fieldNN w)⟩,
  ⟨"ADD_IMM", "7XNN", "ADD Vx, nn", 0xF000, 0x7000, fun w => .addImm (fieldX w) (fieldNN w)⟩,
  ⟨"LD_REG", "8XY0", "LD Vx, Vy", 0xF00F, 0x8000, fun w => .ldReg (fieldX w) (fieldY w)⟩,
  ⟨"OR", "8XY1", "OR Vx, Vy", 0xF00F, 0x8001, fun w => .orReg (fieldX w) (fieldY w)⟩,
  ⟨"AND", "8XY2", "AND Vx, Vy", 0xF00F, 0x8002, fun w => .andReg (fieldX w) (fieldY w)⟩,
  ⟨"XOR", "8XY3", "XOR Vx, Vy", 0xF00F, 0x8003, fun w => .xorReg (fieldX w) (fieldY w)⟩,
  ⟨"ADD_REG", "8XY4", "ADD Vx, Vy", 0xF00F, 0x8004, fun w => .addReg (fieldX w) (fieldY w)⟩,
  ⟨"SUB", "8XY5", "SUB Vx, Vy", 0xF00F, 0x8005, fun w => .sub (fieldX w) (fieldY w)⟩,
  ⟨"SHR", "8XY6", "SHR Vx", 0xF00F, 0x8006, fun w => .shr (fieldX w) (fieldY w)⟩,
  ⟨"SUBN", "8XY7", "SUBN Vx, Vy", 0xF00F, 0x8007, fun w => .subn (fieldX w) (fieldY w)⟩,
  ⟨"SHL", "8XYE", "SHL Vx", 0xF00F, 0x800E, fun w => .shl (fieldX w) (fieldY w)⟩ ]

/-- Families 9 to E of the opcode map, in its order (R74). -/
def opcodeRows9toE : List OpcodeRow := [
  ⟨"SNE_REG", "9XY0", "SNE Vx, Vy", 0xF00F, 0x9000, fun w => .sneReg (fieldX w) (fieldY w)⟩,
  ⟨"LD_I", "ANNN", "LD I, nnn", 0xF000, 0xA000, fun w => .ldI (fieldNNN w)⟩,
  ⟨"JP_V0", "BNNN", "JP V0, nnn", 0xF000, 0xB000, fun w => .jpV0 (fieldNNN w)⟩,
  ⟨"RND", "CXNN", "RND Vx, nn", 0xF000, 0xC000, fun w => .rnd (fieldX w) (fieldNN w)⟩,
  ⟨"DRW", "DXYN", "DRW Vx, Vy, n", 0xF000, 0xD000, fun w => .drw (fieldX w) (fieldY w) (fieldN w)⟩,
  ⟨"SKP", "EX9E", "SKP Vx", 0xF0FF, 0xE09E, fun w => .skp (fieldX w)⟩,
  ⟨"SKNP", "EXA1", "SKNP Vx", 0xF0FF, 0xE0A1, fun w => .sknp (fieldX w)⟩ ]

/-- Family F of the opcode map, in its order (R74). -/
def opcodeRowsF : List OpcodeRow := [
  ⟨"LD_VX_DT", "FX07", "LD Vx, DT", 0xF0FF, 0xF007, fun w => .ldVxDt (fieldX w)⟩,
  ⟨"LD_VX_K", "FX0A", "LD Vx, K", 0xF0FF, 0xF00A, fun w => .ldVxK (fieldX w)⟩,
  ⟨"LD_DT_VX", "FX15", "LD DT, Vx", 0xF0FF, 0xF015, fun w => .ldDtVx (fieldX w)⟩,
  ⟨"LD_ST_VX", "FX18", "LD ST, Vx", 0xF0FF, 0xF018, fun w => .ldStVx (fieldX w)⟩,
  ⟨"ADD_I", "FX1E", "ADD I, Vx", 0xF0FF, 0xF01E, fun w => .addI (fieldX w)⟩,
  ⟨"LD_F", "FX29", "LD F, Vx", 0xF0FF, 0xF029, fun w => .ldF (fieldX w)⟩,
  ⟨"LD_B", "FX33", "LD B, Vx", 0xF0FF, 0xF033, fun w => .ldB (fieldX w)⟩,
  ⟨"LD_MEM_VX", "FX55", "LD [I], Vx", 0xF0FF, 0xF055, fun w => .ldMemVx (fieldX w)⟩,
  ⟨"LD_VX_MEM", "FX65", "LD Vx, [I]", 0xF0FF, 0xF065, fun w => .ldVxMem (fieldX w)⟩ ]

/-- The 35 rows of spec/opcode_table.json (R74). -/
def opcodeTable : List OpcodeRow := opcodeRows0to5 ++ opcodeRows6to8 ++ opcodeRows9toE ++ opcodeRowsF

/-- The decoder rule R82 describes: the first row, in order, whose fixed bits the word has. -/
def decodeByTable (w : Word) : Except DecodeError Instr :=
  match opcodeTable.find? (fun r => w &&& r.mask == r.value) with
  | some r => .ok (r.build w)
  | none => .error (.unsupportedOpcode w)

/-! ## Encode (R72) -/

/-- A register number as the 4-bit field that names it (R73). -/
def regField (x : RegIx) : BitVec 4 := BitVec.ofFin (w := 4) x

/-- Format `NNN`. -/
def formNNN (op : BitVec 4) (nnn : Addr12) : Word := op ++ nnn

/-- Format `XNN`. -/
def formXNN (op : BitVec 4) (x : RegIx) (nn : Byte) : Word := op ++ regField x ++ nn

/-- Format `XY`, and format `XYN` with `N` in the place of the sub-opcode. -/
def formXY (op : BitVec 4) (x y : RegIx) (n : BitVec 4) : Word := op ++ regField x ++ regField y ++ n

/-- Format `X`, the sub-opcode in the low byte. -/
def formX (op : BitVec 4) (x : RegIx) (sub : Byte) : Word := op ++ regField x ++ sub

/-- The word of an instruction, by its format and pattern (R72, R74). -/
def encode : Instr → Word
  | .cls => 0x00E0#16
  | .ret => 0x00EE#16
  | .sys nnn => formNNN 0x0 nnn
  | .jp nnn => formNNN 0x1 nnn
  | .call nnn => formNNN 0x2 nnn
  | .seImm x nn => formXNN 0x3 x nn
  | .sneImm x nn => formXNN 0x4 x nn
  | .seReg x y => formXY 0x5 x y 0x0
  | .ldImm x nn => formXNN 0x6 x nn
  | .addImm x nn => formXNN 0x7 x nn
  | .ldReg x y => formXY 0x8 x y 0x0
  | .orReg x y => formXY 0x8 x y 0x1
  | .andReg x y => formXY 0x8 x y 0x2
  | .xorReg x y => formXY 0x8 x y 0x3
  | .addReg x y => formXY 0x8 x y 0x4
  | .sub x y => formXY 0x8 x y 0x5
  | .shr x y => formXY 0x8 x y 0x6
  | .subn x y => formXY 0x8 x y 0x7
  | .shl x y => formXY 0x8 x y 0xE
  | .sneReg x y => formXY 0x9 x y 0x0
  | .ldI nnn => formNNN 0xA nnn
  | .jpV0 nnn => formNNN 0xB nnn
  | .rnd x nn => formXNN 0xC x nn
  | .drw x y n => formXY 0xD x y n
  | .skp x => formX 0xE x 0x9E
  | .sknp x => formX 0xE x 0xA1
  | .ldVxDt x => formX 0xF x 0x07
  | .ldVxK x => formX 0xF x 0x0A
  | .ldDtVx x => formX 0xF x 0x15
  | .ldStVx x => formX 0xF x 0x18
  | .addI x => formX 0xF x 0x1E
  | .ldF x => formX 0xF x 0x29
  | .ldB x => formX 0xF x 0x33
  | .ldMemVx x => formX 0xF x 0x55
  | .ldVxMem x => formX 0xF x 0x65

/-! ## Words in memory: high byte first (R57, R58) -/

/-- The 16-bit word whose high byte is `hi` (R57: `high_byte << 8 | low_byte`). -/
def wordOfBytes (hi lo : Byte) : Word := hi ++ lo

/-- The two bytes of a word, the high byte at the lower address. -/
def bytesOfWord (w : Word) : List Byte := [w.extractLsb' 8 8, w.extractLsb' 0 8]

/-- Decode the instruction at the front of a byte sequence; every instruction is two bytes (R70). -/
def decodeBytes : List Byte → Except DecodeError (Instr × List Byte)
  | hi :: lo :: rest =>
    match decodeWord (wordOfBytes hi lo) with
    | .ok i => .ok (i, rest)
    | .error e => .error e
  | [] | [_] => .error .truncated

/-- The bytes of an instruction. -/
def encodeBytes (i : Instr) : List Byte := bytesOfWord (encode i)

/-- The bytes of the one-word instruction whose bits, numbered as spec/opcode_table.json numbers them (bit 0
the least significant bit of the word), are the low `nbits` bits of `w`. -/
def bytesOfTableWord (nbits w : Nat) : List Byte := bytesOfWord (BitVec.ofNat 16 (w % 2 ^ nbits))

/-- What the decoder reads from that instruction, laid out as the memory holds it. -/
def decodeTableWord (nbits w : Nat) : Option Instr :=
  match decodeBytes (bytesOfTableWord nbits w) with
  | .ok (i, _) => some i
  | .error _ => none

end Sys2Proof
end

