-- ==== Sys2Proof/Config.lean ====
section
/-!
DEFINITION. What is fixed for the machine and does not change as it runs: the sizes of rule R7, and the one
free value of the spec, the byte source `RNG` of rule R8. The other open parameters of R8 are arguments where
they are used: `CYCLES_PER_TICK` of Machine/Schedule.lean's `runFrame`, `PROGRAM` of Machine/Events.lean's
`loadProgram`.
-/

namespace Sys2Proof.Config

/-- Bytes of memory, addresses 0x000 to 0xFFF (R7, R50). -/
abbrev memSize : Nat := 4096

/-- Bytes of the font region 0x000 to 0x04F (R7, R52). -/
abbrev fontSize : Nat := 80

/-- Where a program image is placed and the first instruction is fetched (R7, R251). -/
abbrev programBase : Word := 0x0200

/-- The longest program image, 0x200 to 0xFFF (R7). -/
abbrev maxProgram : Nat := 3584

/-- The bytes the injected random generator delivers, by their place in the sequence (R8, R11, R131): the
`n`-th byte taken since the run began is `randByte n`. A FREE VALUE: it has no body, so no proof can rest on
what it is; a statement about `CXNN` holds for every byte (log entry 1). -/
opaque randByte : Nat → Byte

end Sys2Proof.Config
end

