-- ==== Sys2Proof/Machine/State.lean ====
section
/-!
DEFINITION. The state of the core, whole (rule R20), the value of each piece after reset (R35), and the
reasons a step can stop. Everything here is plain data.
-/

namespace Sys2Proof.Machine

/-- The four fatal errors (R200 to R204). -/
inductive ErrorKind where
  /-- A fetch, a data access, a font lookup or a key index outside its range, or too long a program (R201). -/
  | outOfBounds
  /-- A call with 16 return addresses on the stack (R202). -/
  | stackOverflow
  /-- A return with an empty stack (R203). -/
  | stackUnderflow
  /-- A fetched word that is none of the 35 instructions (R204). -/
  | unsupportedOpcode
  deriving DecidableEq, Repr

/-- `STATUS` (R33): running, or halted with the error, the `PC` of the instruction that failed (0x0200 for a
failed program load) and the word fetched (`none` where the fetch, or a load, failed). -/
inductive Status where
  | running
  | halted (kind : ErrorKind) (addr : Word) (opcode : Option Word)
  deriving DecidableEq, Repr

/-- The framebuffer: 32 rows of 64 pixels, `FB[y][x]`, `true` = set (R31, R151). -/
abbrev Framebuffer := Vector (Vector Bool 64) 32

/-- Memory (R32, R50): the bytes that differ from what they hold after reset, by address, in the canonical
form of Machine/Memory.lean's `Memory.wf`. -/
abbrev Memory := List Host.Cell

/-- The state tuple of rule R20, and one field of the model's own. -/
structure State where
  /-- `V[0]` to `V[15]`, the general registers; `V[15]` is `VF` (R21, R23). -/
  v        : Vector Byte 16
  /-- `I`, the index register (R24). -/
  i        : Word
  /-- `PC`, the program counter (R25). -/
  pc       : Word
  /-- `STACK[0]` to `STACK[15]`, the return addresses (R27). -/
  stack    : Vector Word 16
  /-- `SP`, how many entries of the stack are in use, 0 to 16 (R27). -/
  sp       : Fin 17
  /-- `DT`, the delay timer (R28). -/
  dt       : Byte
  /-- `ST`, the sound timer (R29). -/
  st       : Byte
  /-- `KEYS[0]` to `KEYS[15]`, `true` = pressed (R30). -/
  keys     : Vector Bool 16
  /-- `KEYS_PREV[0]` to `KEYS_PREV[15]`, the keys at the end of the last completed cycle (R30). -/
  keysPrev : Vector Bool 16
  /-- `FB`, the framebuffer (R31). -/
  fb       : Framebuffer
  /-- `MEM`, 4096 bytes (R32). -/
  mem      : Memory
  /-- `STATUS` (R33). -/
  status   : Status
  /-- THE MODEL'S OWN, no state of the spec: how many bytes `RNG` has delivered so far. It picks the next one
  from `Config.randByte` (R8, R131; log entry 1). -/
  rngDrawn : Nat
  deriving DecidableEq, Repr

/-- Why the machine stops with a fault. THERE IS NO SUCH REASON, so there is no constructor: rule R205 says what
each of the four fatal errors does to the state (`STATUS` is written, nothing else changes), so a step that
raises one answers a next state, and a step of a halted machine leaves the state as it is (log entry 2). -/
inductive Fault where
  deriving DecidableEq, Repr

/-- Why an instruction has no meaning. -/
inductive Refusal where
  /-- Raised by `exec`'s arm of an instruction that has no meaning yet (safe); no arm raises it now. -/
  | notModelled (mnemonic : String)
  deriving DecidableEq, Repr

/-- What a step, and every meaning, answers. -/
abbrev StepResult := Host.Outcome State Fault Refusal

/-- The state after `Reset` (R35). No byte of memory is listed: each holds its reset value, the font or 0x00
(Machine/Memory.lean, `Memory.resetByte`). -/
def State.reset : State where
  v        := Vector.replicate 16 0x00
  i        := 0x0000
  pc       := Config.programBase
  stack    := Vector.replicate 16 0x0000
  sp       := 0
  dt       := 0x00
  st       := 0x00
  keys     := Vector.replicate 16 false
  keysPrev := Vector.replicate 16 false
  fb       := Vector.replicate 32 (Vector.replicate 64 false)
  mem      := []
  status   := .running
  rngDrawn := 0

end Sys2Proof.Machine
end

