-- ==== Sys2Proof/Machine/Flags.lean ====
section
/-!
DEFINITION. The results and flags of the flag-writing arithmetic (rules R23, R126 to R130, R132). The flag of
`DXYN` is the collision that Machine/Framebuffer.lean reports.
-/

namespace Sys2Proof.Machine

/-- The number of the flag register `VF` (R21, R23). -/
def flagReg : RegIx := 15

/-- A flag as the 8-bit number 0x00 or 0x01 (R23, R132). -/
def flagByte (b : Bool) : Byte := if b then 0x01 else 0x00

/-- The 9-bit sum `zext_9(a) + zext_9(b)` (R126). -/
def sum9 (a b : Byte) : BitVec 9 := a.setWidth 9 + b.setWidth 9

/-- `s[7:0]` of the 9-bit sum (R126). -/
def addResult (a b : Byte) : Byte := (sum9 a b).extractLsb' 0 8

/-- `s[8]` of the 9-bit sum: the carry out (R126). -/
def carryOut (a b : Byte) : Bool := (sum9 a b).getLsbD 8

/-- `(a - b) mod 256` (R127, R129). -/
def subResult (a b : Byte) : Byte := a - b

/-- The not-borrow flag of `a - b`: `a >= b` before the subtraction (R127, R129). -/
def notBorrow (a b : Byte) : Bool := decide (b.toNat ≤ a.toNat)

/-- `zext_8(a[7:1])` (R128). -/
def shrResult (a : Byte) : Byte := (a.extractLsb' 1 7).setWidth 8

/-- `a[0]`, the bit a right shift moves out (R128). -/
def shrOut (a : Byte) : Bool := a.getLsbD 0

/-- `a[6:0] ++ 0` (R130). -/
def shlResult (a : Byte) : Byte := a.extractLsb' 0 7 ++ 0#1

/-- `a[7]`, the bit a left shift moves out (R130). -/
def shlOut (a : Byte) : Bool := a.getLsbD 7

end Sys2Proof.Machine
end

