-- ==== Sys2Proof/Machine/Framebuffer.lean ====
section
/-!
DEFINITION. The framebuffer and the sprite engine (rules R31, R150 to R152): one pixel, clearing, and the XOR
blit with wrap-around and collision detection, in the order of the spec's loops.
-/

namespace Sys2Proof.Machine

/-- `FB[y][x]` (R31, R151). -/
def Framebuffer.pixel (fb : Framebuffer) (x : Col) (y : Row) : Bool := (fb[y.val])[x.val]

/-- `FB[y][x] <- b`. -/
def Framebuffer.setPixel (fb : Framebuffer) (x : Col) (y : Row) (b : Bool) : Framebuffer :=
  fb.set y.val ((fb[y.val]).set x.val b)

/-- Every pixel clear (R150). -/
def Framebuffer.blank : Framebuffer := Vector.replicate 32 (Vector.replicate 64 false)

/-- A drawing in progress: the framebuffer, and whether a pixel has gone from set to clear. -/
structure Drawing where
  fb        : Framebuffer
  collision : Bool
  deriving DecidableEq, Repr

/-- One sprite bit that is 1, at column `x` and row `y`: the pixel is flipped, and it is a collision when it
was set (R152). -/
def Drawing.flip (d : Drawing) (x : Col) (y : Row) : Drawing where
  fb        := d.fb.setPixel x y (!d.fb.pixel x y)
  collision := d.collision || d.fb.pixel x y

/-- Column `c` of sprite row byte `b`: bit `7 - c`; a 0 bit leaves its pixel (R151, R152). -/
def Drawing.spriteBit (d : Drawing) (x0 y : Nat) (b : Byte) (c : Nat) : Drawing :=
  if b.getLsbD (7 - c) then d.flip (Fin.ofNat 64 (x0 + c)) (Fin.ofNat 32 y) else d

/-- One sprite row: columns 0 to 7 (R152). -/
def Drawing.spriteRow (d : Drawing) (x0 y : Nat) (b : Byte) : Drawing :=
  [0, 1, 2, 3, 4, 5, 6, 7].foldl (fun d c => d.spriteBit x0 y b c) d

/-- The sprite rows `bs`, the first at row `y` and each next one row further (R152). Columns are taken modulo
64 and rows modulo 32 at each pixel. -/
def Drawing.sprite : Drawing → Nat → Nat → List Byte → Drawing
  | d, _, _, [] => d
  | d, x0, y, b :: bs => Drawing.sprite (d.spriteRow x0 y b) x0 (y + 1) bs

/-- A sprite drawn on `fb` from column `x0` and row `y0`, with no collision before it (R152). -/
def Framebuffer.draw (fb : Framebuffer) (x0 y0 : Nat) (bs : List Byte) : Drawing :=
  Drawing.sprite ⟨fb, false⟩ x0 y0 bs

end Sys2Proof.Machine
end

