-- ==== Sys2Proof/Machine/Memory.lean ====
section
/-!
DEFINITION. The one memory (rules R50 to R60): what it holds after reset, reading and writing one byte, runs of
bytes, and the canonical form in which it is kept. Addresses are plain natural numbers that never wrap (R50);
which of them exist, and which may be written, is checked in Machine/Ops.lean before anything is read or written.
-/

namespace Sys2Proof.Machine

/-- Glyphs 0 to 7 of the font, five bytes each, top row first (R53). -/
def fontLow : List Byte :=
  [0xF0, 0x90, 0x90, 0x90, 0xF0] ++
  [0x20, 0x60, 0x20, 0x20, 0x70] ++
  [0xF0, 0x10, 0xF0, 0x80, 0xF0] ++
  [0xF0, 0x10, 0xF0, 0x10, 0xF0] ++
  [0x90, 0x90, 0xF0, 0x10, 0x10] ++
  [0xF0, 0x80, 0xF0, 0x10, 0xF0] ++
  [0xF0, 0x80, 0xF0, 0x90, 0xF0] ++
  [0xF0, 0x10, 0x20, 0x40, 0x40]

/-- Glyphs 8 to F of the font (R53). -/
def fontHigh : List Byte :=
  [0xF0, 0x90, 0xF0, 0x90, 0xF0] ++
  [0xF0, 0x90, 0xF0, 0x10, 0xF0] ++
  [0xF0, 0x90, 0xF0, 0x90, 0x90] ++
  [0xE0, 0x90, 0xE0, 0x90, 0xE0] ++
  [0xF0, 0x80, 0x80, 0x80, 0xF0] ++
  [0xE0, 0x90, 0x90, 0x90, 0xE0] ++
  [0xF0, 0x80, 0xF0, 0x80, 0xF0] ++
  [0xF0, 0x80, 0xF0, 0x80, 0x80]

/-- The 80 bytes of the font, from address 0x000 (R53). -/
def font : List Byte := fontLow ++ fontHigh

/-- What a byte holds after reset, and so what an unlisted address reads as: the font in 0x000 to 0x04F, 0x00
above it (R35, R52; the spec's decisions D3 and D4). -/
def Memory.resetByte (a : Nat) : Byte := font.getD a 0x00

/-- The byte at address `a` (R55). A read has no side effect. -/
def Memory.read : Memory → Nat → Byte
  | [], a => Memory.resetByte a
  | (b, v) :: m, a => if a = b then v else Memory.read m a

/-- The memory without its entry for address `a`. -/
def Memory.unlist (m : Memory) (a : Nat) : Memory := m.filter (fun c => c.1 != a)

/-- The memory with an entry for address `a`, put where the addresses stay rising. -/
def Memory.list : Memory → Nat → Byte → Memory
  | [], a, v => [(a, v)]
  | (b, u) :: m, a, v => if a < b then (a, v) :: (b, u) :: m else (b, u) :: Memory.list m a v

/-- The memory with byte `v` at address `a` (R56). Writing an address's reset value leaves it unlisted. -/
def Memory.write (m : Memory) (a : Nat) (v : Byte) : Memory :=
  if v = Memory.resetByte a then m.unlist a else (m.unlist a).list a v

/-- The memory with the bytes `bs` at `a`, `a + 1`, ... (R60, R146). -/
def Memory.writeRun : Memory → Nat → List Byte → Memory
  | m, _, [] => m
  | m, a, b :: bs => Memory.writeRun (m.write a b) (a + 1) bs

/-- The `n` bytes at `a`, `a + 1`, ... (R60, R146). -/
def Memory.readRun (m : Memory) : Nat → Nat → List Byte
  | _, 0 => []
  | a, n + 1 => m.read a :: Memory.readRun m (a + 1) n

/-- The canonical form: addresses strictly rising, all of them addresses of the machine, and no entry equal to
what its address holds after reset. Equal memories are equal lists (log entry 3). -/
abbrev Memory.wf (m : Memory) : Prop :=
  m.Pairwise (fun c d => c.1 < d.1) ∧ ∀ c ∈ m, c.1 < Config.memSize ∧ c.2 ≠ Memory.resetByte c.1

end Sys2Proof.Machine
end

