-- ==== Sys2Proof/Machine/Operands.lean ====
section
/-!
DEFINITION. The operand forms (rules R73, R146, R151): jump targets, addresses relative to `I`, an index into a
16-entry table held in a register, the glyph address, the decimal digits, the registers `V[0]` to `V[X]`, and
the start position of a sprite.
-/

namespace Sys2Proof.Machine

/-- The target of `1NNN` and `2NNN`, and the value of `ANNN`: `zext_16(NNN)` (R103, R104, R140). -/
def target (nnn : Addr12) : Word := zext16 nnn

/-- The target of `BNNN`: `zext_16(V[0]) + zext_16(NNN)`, not reduced to 12 bits (R105). -/
def offsetTarget (v0 : Byte) (nnn : Addr12) : Word := zext16 v0 + zext16 nnn

/-- The base address held in `I`, as a number: element `k` of a transfer is at `baseOf i + k` (R146). -/
def baseOf (i : Word) : Nat := i.toNat

/-- `(I + zext_16(V[X])) mod 0x1000` (R141). -/
def indexSum (i : Word) (b : Byte) : Word := (i + zext16 b) % 0x1000#16

/-- A register used as a number 0x0 to 0xF: a font digit or a key. A larger value is no such number; it is not
masked (R142, R160, R161). -/
def tableIndex? (b : Byte) : Option (Fin 16) :=
  if h : b.toNat < 16 then some ⟨b.toNat, h⟩ else none

/-- The address of glyph `d`: `5 * zext_16(d)` (R53, R142). -/
def glyphAddress (d : Fin 16) : Word := BitVec.ofNat 16 (5 * d.val)

/-- The hundreds, tens and ones digit of a byte (R143). -/
def decimalDigits (b : Byte) : List Byte :=
  [BitVec.ofNat 8 (b.toNat / 100), BitVec.ofNat 8 (b.toNat / 10 % 10), BitVec.ofNat 8 (b.toNat % 10)]

/-- How many registers `FX55` and `FX65` move: `X + 1` (R73, R144, R145). -/
def countTo (x : RegIx) : Nat := x.val + 1

/-- The values of `V[0]` to `V[X]`, in order (R144). -/
def registersTo (x : RegIx) (v : Vector Byte 16) : List Byte := v.toList.take (countTo x)

/-- The register file with the bytes `bs` in registers `k`, `k + 1`, ... (R145). -/
def loadRegisters : Nat → List Byte → Vector Byte 16 → Vector Byte 16
  | _, [], v => v
  | k, b :: bs, v => loadRegisters (k + 1) bs (v.setIfInBounds k b)

/-- The start column of a sprite: `V[X] mod 64` (R152). -/
def startCol (b : Byte) : Nat := b.toNat % 64

/-- The start row of a sprite: `V[Y] mod 32` (R152). -/
def startRow (b : Byte) : Nat := b.toNat % 32

end Sys2Proof.Machine
end

