-- ==== Sys2Proof/Machine/Ops.lean ====
section
/-!
DEFINITION. The named operations over the state that the meanings share: registers, the program counter, the
stack, checked memory access and fetch, raising a fatal error, and the end of a cycle.
-/

namespace Sys2Proof.Machine

/-! ## Registers and the other named pieces of state -/

/-- `V[x]`, read (R18, R21). No register is hardwired. -/
def State.reg (s : State) (x : RegIx) : Byte := s.v[x.val]

/-- `V[x] <- b` (R18, R21). -/
def State.setReg (s : State) (x : RegIx) (b : Byte) : State := { s with v := s.v.set x.val b }

/-- `V[0]` and on `<- bs` (R145). -/
def State.setRegsFrom0 (s : State) (bs : List Byte) : State := { s with v := loadRegisters 0 bs s.v }

/-- `I <- a`. -/
def State.setI (s : State) (a : Word) : State := { s with i := a }

/-- `PC <- a`. -/
def State.setPc (s : State) (a : Word) : State := { s with pc := a }

/-- `DT <- b`. -/
def State.setDt (s : State) (b : Byte) : State := { s with dt := b }

/-- `ST <- b`. -/
def State.setSt (s : State) (b : Byte) : State := { s with st := b }

/-- `FB <- fb`. -/
def State.setFb (s : State) (fb : Framebuffer) : State := { s with fb := fb }

/-- `MEM <- m`. -/
def State.setMem (s : State) (m : Memory) : State := { s with mem := m }

/-- `KEYS <- ks`. -/
def State.setKeys (s : State) (ks : Vector Bool 16) : State := { s with keys := ks }

/-- `KEYS_PREV <- ks`. -/
def State.setKeysPrev (s : State) (ks : Vector Bool 16) : State := { s with keysPrev := ks }

/-- `STATUS <- st`. -/
def State.setStatus (s : State) (st : Status) : State := { s with status := st }

/-- `STATUS = Running`. -/
def State.isRunning (s : State) : Bool := s.status == .running

/-- `KEYS[k]` (R30). -/
def State.key (s : State) (k : KeyIx) : Bool := s.keys[k.val]

/-- `KEYS_PREV[k]` (R30). -/
def State.keyPrev (s : State) (k : KeyIx) : Bool := s.keysPrev[k.val]

/-- `next`: `PC <- PC + 2` (R18). -/
def State.advance (s : State) : State := s.setPc (s.pc + 2)

/-- `skip`: `PC <- PC + 4` (R18, R114). -/
def State.skipNext (s : State) : State := s.setPc (s.pc + 4)

/-- `if c: skip else: next` (R110 to R114). -/
def State.skipIf (s : State) (c : Bool) : State := if c then s.skipNext else s.advance

/-- A result to `V[x]` and then the flag to `VF`, last, so that with `x = 0xF` the flag stays (R23, R132,
R267). -/
def State.setRegThenFlag (s : State) (x : RegIx) (result : Byte) (flag : Bool) : State :=
  (s.setReg x result).setReg flagReg (flagByte flag)

/-! ## The random byte (R8, R131) -/

/-- `RandByte()`: the next byte of `RNG`. -/
def State.randByte (s : State) : Byte := Config.randByte s.rngDrawn

/-- One byte has been taken from `RNG`. -/
def State.drawRandom (s : State) : State := { s with rngDrawn := s.rngDrawn + 1 }

/-! ## The return stack (R27) -/

/-- `STACK[k]`. -/
def State.stackEntry (s : State) (k : Fin 16) : Word := s.stack[k.val]

/-- Push: `STACK[SP] <- a; SP <- SP + 1`; none when 16 entries are in use (R27, R104). -/
def State.push (s : State) (a : Word) : Option State :=
  if h : s.sp.val < 16 then
    some { s with stack := s.stack.set s.sp.val a, sp := ⟨s.sp.val + 1, by omega⟩ }
  else none

/-- Pop: `SP <- SP - 1` and the entry `STACK[SP]`; none when no entry is in use (R27, R101). -/
def State.pop (s : State) : Option (Word × State) :=
  if h : 0 < s.sp.val then
    some (s.stack[s.sp.val - 1], { s with sp := ⟨s.sp.val - 1, by omega⟩ })
  else none

/-! ## Memory access (R50, R55 to R57) -/

/-- The byte at address `a`. -/
def State.byteAt (s : State) (a : Nat) : Byte := s.mem.read a

/-- `n` bytes may be read from `a` on: none is needed, or the last is at most 0xFFF (R55, R145, R152). -/
def canRead (a n : Nat) : Bool := n == 0 || a + n ≤ Config.memSize

/-- `n` bytes, at least one, may be written from `a` on: none is in the font region or above 0xFFF (R56). -/
def canWrite (a n : Nat) : Bool := Config.fontSize ≤ a && a + n ≤ Config.memSize

/-- The `n` bytes from `a` on, all checked before any is read (R206). -/
def State.loadRun (s : State) (a n : Nat) : Option (List Byte) :=
  if canRead a n then some (s.mem.readRun a n) else none

/-- The bytes `bs` stored from `a` on, all addresses checked before the first write (R56, R146, R206). -/
def State.storeRun (s : State) (a : Nat) (bs : List Byte) : Option State :=
  if canWrite a bs.length then some (s.setMem (s.mem.writeRun a bs)) else none

/-- `Fetch(addr)`: the big-endian word at `a`, at any parity; none when `a + 1` is above 0xFFF (R57, R59). -/
def State.fetchAt (s : State) (a : Nat) : Option Word :=
  if a + 1 < Config.memSize then some (wordOfBytes (s.mem.read a) (s.mem.read (a + 1))) else none

/-- The word at `PC` (R76 steps 1 and 2). -/
def State.fetch (s : State) : Option Word := s.fetchAt s.pc.toNat

/-! ## Fatal errors (R200 to R206) -/

/-- `raise kind(addr = PC, opcode)`: `STATUS` records the error and NOTHING else changes (R205). -/
def raise (kind : ErrorKind) (opcode : Option Word) (s : State) : StepResult :=
  .next (s.setStatus (.halted kind s.pc opcode))

/-- The raise of an instruction's own rule: the opcode recorded is the instruction's word (R201 to R203). -/
def raiseIn (i : Instr) (kind : ErrorKind) (s : State) : StepResult := raise kind (some (encode i)) s

/-- The numeric code of an error (R201 to R204). -/
def ErrorKind.code : ErrorKind → Nat
  | .outOfBounds => 1
  | .stackOverflow => 2
  | .stackUnderflow => 3
  | .unsupportedOpcode => 4

/-! ## The cycle's frame (R76) -/

/-- A step of a halted machine: nothing changes (R209, R231; log entry 2). -/
def stayHalted (s : State) : StepResult := .next s

/-- Step 5 of the cycle, `KEYS_PREV <- KEYS`, skipped when the instruction raised (R30, R76). -/
def sampleKeys (t : State) : State := if t.isRunning then t.setKeysPrev t.keys else t

/-- The end of a cycle whose instruction answered `r`. -/
def endCycle (r : StepResult) : StepResult :=
  match r with
  | .next t => .next (sampleKeys t)
  | .fault f => .fault f
  | .refused q => .refused q

/-- First `r`, then `f` on its state. -/
def andThen (r : StepResult) (f : State → StepResult) : StepResult :=
  match r with
  | .next t => f t
  | .fault e => .fault e
  | .refused q => .refused q

/-- Where the next instruction is fetched from, in a state that can fetch: `PC`, or 0x0200 where `PC` is past
the last fetchable address. -/
def fetchBase (s : State) : Word := if s.pc.toNat + 1 < Config.memSize then s.pc else Config.programBase

/-- The state with `bs` placed where the next instruction is fetched from, running. -/
def placeForFetch (s : State) (bs : List Byte) : State :=
  { s with pc := fetchBase s, status := .running, mem := s.mem.writeRun (fetchBase s).toNat bs }

end Sys2Proof.Machine
end

