-- ==== Sys2Proof/Machine/Alu.lean ====
section
/-!
DEFINITION. Register load, arithmetic, logic, shift, random (rules R120 to R132). Every operand is read from the
state before the instruction (R266); where a flag is written it is written last (R132, R267).
-/

namespace Sys2Proof.Machine

/-- `6XNN` (R120). -/
def execLdImm (x : RegIx) (nn : Byte) (s : State) : StepResult := .next (s.setReg x nn).advance

/-- `7XNN` (R121): modulo 256, no carry anywhere. -/
def execAddImm (x : RegIx) (nn : Byte) (s : State) : StepResult := .next (s.setReg x (s.reg x + nn)).advance

/-- `8XY0` (R122). -/
def execLdReg (x y : RegIx) (s : State) : StepResult := .next (s.setReg x (s.reg y)).advance

/-- `8XY1` (R123). -/
def execOr (x y : RegIx) (s : State) : StepResult := .next (s.setReg x (s.reg x ||| s.reg y)).advance

/-- `8XY2` (R124). -/
def execAnd (x y : RegIx) (s : State) : StepResult := .next (s.setReg x (s.reg x &&& s.reg y)).advance

/-- `8XY3` (R125). -/
def execXor (x y : RegIx) (s : State) : StepResult := .next (s.setReg x (s.reg x ^^^ s.reg y)).advance

/-- `8XY4` (R126). -/
def execAddReg (x y : RegIx) (s : State) : StepResult :=
  .next (s.setRegThenFlag x (addResult (s.reg x) (s.reg y)) (carryOut (s.reg x) (s.reg y))).advance

/-- `8XY5` (R127). -/
def execSub (x y : RegIx) (s : State) : StepResult :=
  .next (s.setRegThenFlag x (subResult (s.reg x) (s.reg y)) (notBorrow (s.reg x) (s.reg y))).advance

/-- `8XY6` (R128); `Y` is ignored. -/
def execShr (x _y : RegIx) (s : State) : StepResult :=
  .next (s.setRegThenFlag x (shrResult (s.reg x)) (shrOut (s.reg x))).advance

/-- `8XY7` (R129). -/
def execSubn (x y : RegIx) (s : State) : StepResult :=
  .next (s.setRegThenFlag x (subResult (s.reg y) (s.reg x)) (notBorrow (s.reg y) (s.reg x))).advance

/-- `8XYE` (R130); `Y` is ignored. -/
def execShl (x _y : RegIx) (s : State) : StepResult :=
  .next (s.setRegThenFlag x (shlResult (s.reg x)) (shlOut (s.reg x))).advance

/-- `CXNN` (R131): one byte is taken from `RNG`, also when `NN = 0`. -/
def execRnd (x : RegIx) (nn : Byte) (s : State) : StepResult :=
  .next (s.drawRandom.setReg x (s.randByte &&& nn)).advance

end Sys2Proof.Machine
end

