-- ==== Sys2Proof/Machine/Display.lean ====
section
/-!
DEFINITION. The framebuffer instructions (rules R150 to R153): `00E0` and `DXYN`.
-/

namespace Sys2Proof.Machine

/-- `00E0` (R150). -/
def execCls (s : State) : StepResult := .next (s.setFb Framebuffer.blank).advance

/-- `DXYN` (R152): the `N` sprite bytes from `I` on are XORed onto the framebuffer from the start position on,
and `VF` is the collision, written last. `OutOfBounds`, with nothing drawn, when a sprite byte is above 0xFFF. -/
def execDrw (x y : RegIx) (n : Nibble) (s : State) : StepResult :=
  match s.loadRun (baseOf s.i) n.toNat with
  | none => raiseIn (.drw x y n) .outOfBounds s
  | some bs =>
    let d := s.fb.draw (startCol (s.reg x)) (startRow (s.reg y)) bs
    .next ((s.setFb d.fb).setReg flagReg (flagByte d.collision)).advance

end Sys2Proof.Machine
end

