-- ==== Sys2Proof/Machine/Flow.lean ====
section
/-!
DEFINITION. Control transfer (rules R100 to R105): `00EE`, `0NNN`, `1NNN`, `2NNN`, `BNNN`.
-/

namespace Sys2Proof.Machine

/-- `00EE` (R101): pop into `PC`, with no advance after it; `StackUnderflow` when the stack is empty. -/
def execRet (s : State) : StepResult :=
  match s.pop with
  | none => raiseIn .ret .stackUnderflow s
  | some (a, t) => .next (t.setPc a)

/-- `0NNN` (R102): a no-op, `NNN` ignored. -/
def execSys (_nnn : Addr12) (s : State) : StepResult := .next s.advance

/-- `1NNN` (R103). -/
def execJp (nnn : Addr12) (s : State) : StepResult := .next (s.setPc (target nnn))

/-- `2NNN` (R104): push `PC + 2`, jump; `StackOverflow` when 16 entries are in use. -/
def execCall (nnn : Addr12) (s : State) : StepResult :=
  match s.push (s.pc + 2) with
  | none => raiseIn (.call nnn) .stackOverflow s
  | some t => .next (t.setPc (target nnn))

/-- `BNNN` (R105). -/
def execJpV0 (nnn : Addr12) (s : State) : StepResult := .next (s.setPc (offsetTarget (s.reg 0) nnn))

end Sys2Proof.Machine
end

