-- ==== Sys2Proof/Machine/Index.lean ====
section
/-!
DEFINITION. The index register and memory transfer (rules R140 to R146): `ANNN`, `FX1E`, `FX29`, `FX33`, `FX55`,
`FX65`. All addresses of an instruction are checked before its first write, and no transfer changes `I`.
-/

namespace Sys2Proof.Machine

/-- `ANNN` (R140). -/
def execLdI (nnn : Addr12) (s : State) : StepResult := .next (s.setI (target nnn)).advance

/-- `FX1E` (R141). -/
def execAddI (x : RegIx) (s : State) : StepResult := .next (s.setI (indexSum s.i (s.reg x))).advance

/-- `FX29` (R142): `OutOfBounds` when `V[X]` is no digit 0x0 to 0xF. -/
def execLdF (x : RegIx) (s : State) : StepResult :=
  match tableIndex? (s.reg x) with
  | none => raiseIn (.ldF x) .outOfBounds s
  | some d => .next (s.setI (glyphAddress d)).advance

/-- `FX33` (R143). -/
def execLdB (x : RegIx) (s : State) : StepResult :=
  match s.storeRun (baseOf s.i) (decimalDigits (s.reg x)) with
  | none => raiseIn (.ldB x) .outOfBounds s
  | some t => .next t.advance

/-- `FX55` (R144). -/
def execLdMemVx (x : RegIx) (s : State) : StepResult :=
  match s.storeRun (baseOf s.i) (registersTo x s.v) with
  | none => raiseIn (.ldMemVx x) .outOfBounds s
  | some t => .next t.advance

/-- `FX65` (R145). -/
def execLdVxMem (x : RegIx) (s : State) : StepResult :=
  match s.loadRun (baseOf s.i) (countTo x) with
  | none => raiseIn (.ldVxMem x) .outOfBounds s
  | some bs => .next (s.setRegsFrom0 bs).advance

end Sys2Proof.Machine
end

