-- ==== Sys2Proof/Machine/Keypad.lean ====
section
/-!
DEFINITION. Keypad and timer instructions (rules R160 to R165): `EX9E`, `EXA1`, `FX07`, `FX0A`, `FX15`, `FX18`.
-/

namespace Sys2Proof.Machine

/-- The keys, lowest index first. -/
def allKeys : List KeyIx := [0, 1, 2, 3, 4, 5, 6, 7, 8, 9, 10, 11, 12, 13, 14, 15]

/-- The key went down since the last completed cycle: `KEYS[k] = 1` and `KEYS_PREV[k] = 0` (R163). -/
def State.newlyPressed (s : State) (k : KeyIx) : Bool := s.key k && !s.keyPrev k

/-- `min(P)` for the set `P` of keys that went down, none when `P` is empty (R163). -/
def State.newKey? (s : State) : Option KeyIx := allKeys.find? s.newlyPressed

/-- `EX9E` (R160): `OutOfBounds` when `V[X]` is no key. -/
def execSkp (x : RegIx) (s : State) : StepResult :=
  match tableIndex? (s.reg x) with
  | none => raiseIn (.skp x) .outOfBounds s
  | some k => .next (s.skipIf (s.key k))

/-- `EXA1` (R161): `OutOfBounds` when `V[X]` is no key. -/
def execSknp (x : RegIx) (s : State) : StepResult :=
  match tableIndex? (s.reg x) with
  | none => raiseIn (.sknp x) .outOfBounds s
  | some k => .next (s.skipIf (!s.key k))

/-- `FX07` (R162). -/
def execLdVxDt (x : RegIx) (s : State) : StepResult := .next (s.setReg x s.dt).advance

/-- `FX0A` (R163): a whole cycle in either case; with no new key, `PC` stays and the next cycle fetches this
instruction again. -/
def execLdVxK (x : RegIx) (s : State) : StepResult :=
  match s.newKey? with
  | none => .next s
  | some k => .next (s.setReg x (BitVec.ofNat 8 k.val)).advance

/-- `FX15` (R164). -/
def execLdDtVx (x : RegIx) (s : State) : StepResult := .next (s.setDt (s.reg x)).advance

/-- `FX18` (R165). -/
def execLdStVx (x : RegIx) (s : State) : StepResult := .next (s.setSt (s.reg x)).advance

end Sys2Proof.Machine
end

