-- ==== Sys2Proof/Machine/Skip.lean ====
section
/-!
DEFINITION. The register-compare skips (rules R110 to R114): `3XNN`, `4XNN`, `5XY0`, `9XY0`.
-/

namespace Sys2Proof.Machine

/-- `3XNN` (R110). -/
def execSeImm (x : RegIx) (nn : Byte) (s : State) : StepResult := .next (s.skipIf (s.reg x == nn))

/-- `4XNN` (R111). -/
def execSneImm (x : RegIx) (nn : Byte) (s : State) : StepResult := .next (s.skipIf (s.reg x != nn))

/-- `5XY0` (R112). -/
def execSeReg (x y : RegIx) (s : State) : StepResult := .next (s.skipIf (s.reg x == s.reg y))

/-- `9XY0` (R113). -/
def execSneReg (x y : RegIx) (s : State) : StepResult := .next (s.skipIf (s.reg x != s.reg y))

end Sys2Proof.Machine
end

