-- ==== Sys2Proof/Machine/Step.lean ====
section
/-!
DEFINITION. One CPU cycle, the event `Step` (rules R10, R76): fetch, decode, execute, sample the keys.
-/

namespace Sys2Proof.Machine

/-- Rule R76. A halted machine stays as it is; otherwise the fetch bound is checked first, then the decode, then
the instruction runs, and a cycle that did not raise ends with `KEYS_PREV <- KEYS`. -/
def step (s : State) : Host.Outcome State Fault Refusal :=
  match s.status with
  | .halted _ _ _ => stayHalted s
  | .running =>
    match s.fetch with
    | none => raise .outOfBounds none s
    | some w =>
      match decodeWord w with
      | .error _ => raise .unsupportedOpcode (some w) s
      | .ok i => endCycle (exec i s)

/-- The state with one instruction, given as spec/opcode_table.json numbers its bits, placed where `step` fetches
next: this stands for the program being loaded from outside the machine (R64; log entry 4). -/
def State.withFetchWord (s : State) (nbits w : Nat) : State := placeForFetch s (bytesOfTableWord nbits w)

end Sys2Proof.Machine
end

