-- ==== Sys2Proof/Machine/Events.lean ====
section
/-!
DEFINITION. The events of the environment (rules R10 to R16): the timer tick, a key, a program load, reset and
quit beside `Step`, each atomic, and what the environment may read between them. No event lands inside a step.
-/

namespace Sys2Proof.Machine

/-! ## Events -/

/-- A timer after one tick: one less, unless it is 0 (R221). -/
def countDown (b : Byte) : Byte := if b = 0x00 then b else b - 1

/-- `Tick` (R12, R221): each timer on its own; a halted core is frozen (R231). -/
def tick (s : State) : State :=
  if s.isRunning then (s.setDt (countDown s.dt)).setSt (countDown s.st) else s

/-- `KeySet(k, b)` (R13, R227): `KEYS[k] <- b` and nothing else; a halted core is frozen (R231). -/
def keySet (k : KeyIx) (b : Bool) (s : State) : State :=
  if s.isRunning then s.setKeys (s.keys.set k.val b) else s

/-- `LoadProgram(bytes)` (R64): the image from 0x200 on, or, when it is longer than 3584 bytes, nothing copied
and the fatal error `OutOfBounds(0x0200, none)`; no effect on a halted core. -/
def loadProgram (bytes : List Byte) (s : State) : State :=
  if s.isRunning then
    if Config.maxProgram < bytes.length then s.setStatus (.halted .outOfBounds Config.programBase none)
    else s.setMem (s.mem.writeRun Config.programBase.toNat bytes)
  else s

/-- `Reset` (R14, R250): every piece of state to its reset value, in any state, halted or not. The random
generator is no state of the core (R34) and goes on where it was (log entry 1). -/
def resetCore (s : State) : State := { State.reset with rngDrawn := s.rngDrawn }

/-- `Quit` (R261): no state of the core changes. -/
def quit (s : State) : State := s

/-- The events of the core (R10 to R16). -/
inductive Event where
  | reset
  | loadProgram (bytes : List Byte)
  | step
  | tick
  | keySet (k : KeyIx) (b : Bool)
  | quit
  deriving DecidableEq, Repr

/-- What an event does. -/
def Event.apply (e : Event) (s : State) : StepResult :=
  match e with
  | .reset => .next (resetCore s)
  | .loadProgram bytes => .next (Sys2Proof.Machine.loadProgram bytes s)
  | .step => Sys2Proof.Machine.step s
  | .tick => .next (Sys2Proof.Machine.tick s)
  | .keySet k b => .next (Sys2Proof.Machine.keySet k b s)
  | .quit => .next (Sys2Proof.Machine.quit s)

/-- A sequence of events, in order; after `Quit` the environment issues no more (R14, R261). -/
def runEvents : List Event → State → StepResult
  | [], s => .next s
  | .quit :: _, s => .next (quit s)
  | e :: es, s => andThen (e.apply s) (runEvents es)

/-! ## What the environment reads between events (R15) -/

/-- `sound_active = (ST != 0)` (R226). -/
def State.soundActive (s : State) : Bool := s.st != 0x00

/-- The framebuffer matrix the rendering collaborator reads (R225). -/
def State.picture (s : State) : Framebuffer := s.fb

/-- The error report: kind, address and opcode once halted (R207). -/
def State.errorReport (s : State) : Option (ErrorKind × Word × Option Word) :=
  match s.status with
  | .running => none
  | .halted kind addr opcode => some (kind, addr, opcode)

end Sys2Proof.Machine
end

