-- ==== Sys2Proof/Machine/Schedule.lean ====
section
/-!
DEFINITION. The environment's schedule (rules R252, R256, R260, R261): boot, a batch of cycles, a tick, until a
fatal error or `Quit`. `CYCLES_PER_TICK` (R8) and the key events are arguments.
-/

namespace Sys2Proof.Machine

/-- `Reset`, then `LoadProgram` once (R252). -/
def boot (program : List Byte) : State := loadProgram program State.reset

/-- The key events that have arrived, in order (R256). -/
def applyKeys : List (KeyIx × Bool) → State → State
  | [], s => s
  | (k, b) :: ks, s => applyKeys ks (keySet k b s)

/-- `n` cycles, stopping early when the core halts (R256, R260). -/
def runCycles : Nat → State → StepResult
  | 0, s => .next s
  | n + 1, s => if s.isRunning then andThen (step s) (runCycles n) else .next s

/-- One turn of the loop: the key events, `CYCLES_PER_TICK` cycles, one tick (R256). -/
def runFrame (cyclesPerTick : Nat) (ks : List (KeyIx × Bool)) (s : State) : StepResult :=
  andThen (runCycles cyclesPerTick (applyKeys ks s)) (fun t => .next (tick t))

/-- The loop, one turn for each list of key events; it ends at the end of the list (`Quit`, R261) or when the
core halts (R260). -/
def runSchedule (cyclesPerTick : Nat) : List (List (KeyIx × Bool)) → State → StepResult
  | [], s => .next s
  | ks :: rest, s =>
    if s.isRunning then andThen (runFrame cyclesPerTick ks s) (runSchedule cyclesPerTick rest) else .next s

end Sys2Proof.Machine
end

