-- ==== Sys2Proof/Safety.lean ====
section
/-!
DEFINITION. The terms the claims use: the invariant (rule R36, and memory's form), the states that runs reach, the
conditions under which an instruction raises (R201 to R203), what an instruction may write (R22, R51), frames,
illegal words (R77), and the pixels under a sprite (R151, R152). Each is written from the spec's own tables, beside
the meanings and not in terms of them.
-/

namespace Sys2Proof.Safety

open Sys2Proof.Machine

/-! ## The invariant (R36) -/

/-- What holds in every reachable state: points 2 to 5 of R36 (points 1 and 6 are in the types of `SP`, the registers
and the timers), and the canonical form of memory, which is the model's own choice (log entry 3). -/
structure Inv (s : State) : Prop where
  /-- The memory is in its canonical form (log entry 3; no rule of the spec). -/
  memWf : s.mem.wf
  /-- The font region holds the font (R36 point 4, R54). -/
  fontIntact : ∀ a, a < Config.fontSize → s.byteAt a = font.getD a 0x00
  /-- `I <= 0x0FFF` (R36 point 2, R24). -/
  indexBound : s.i.toNat ≤ 0x0FFF
  /-- `PC <= 0x10FE` (R36 point 3, R26). -/
  pcBound : s.pc.toNat ≤ 0x10FE
  /-- A return address in use is at most 0x1000 (R36 point 5). -/
  stackBound : ∀ k : Fin 16, k.val < s.sp.val → (s.stackEntry k).toNat ≤ 0x1000

/-- The states that a run from reset reaches by any events in any order. -/
inductive Reachable : State → Prop where
  | reset : Reachable State.reset
  | event {s t : State} (e : Event) : Reachable s → e.apply s = .next t → Reachable t

/-! ## When an instruction raises (the table of R201, R202, R203) -/

/-- The fatal error of an instruction's own rule, if its condition holds. -/
def fatalCause (i : Instr) (s : State) : Option ErrorKind :=
  match i with
  | .ret => if s.sp.val = 0 then some .stackUnderflow else none
  | .call _ => if s.sp.val = 16 then some .stackOverflow else none
  | .drw _ _ n => if 0 < n.toNat ∧ 0x0FFF < s.i.toNat + n.toNat - 1 then some .outOfBounds else none
  | .ldB _ => if 0x0FFF < s.i.toNat + 2 ∨ s.i.toNat ≤ 0x004F then some .outOfBounds else none
  | .ldMemVx x => if 0x0FFF < s.i.toNat + x.val ∨ s.i.toNat ≤ 0x004F then some .outOfBounds else none
  | .ldVxMem x => if 0x0FFF < s.i.toNat + x.val then some .outOfBounds else none
  | .ldF x | .skp x | .sknp x => if 0x0F < (s.reg x).toNat then some .outOfBounds else none
  | .cls | .sys _ | .jp _ | .seImm _ _ | .sneImm _ _ | .seReg _ _ | .ldImm _ _ | .addImm _ _ | .ldReg _ _
  | .orReg _ _ | .andReg _ _ | .xorReg _ _ | .addReg _ _ | .sub _ _ | .shr _ _ | .subn _ _ | .shl _ _
  | .sneReg _ _ | .ldI _ | .jpV0 _ | .rnd _ _ | .ldVxDt _ | .ldVxK _ | .ldDtVx _ | .ldStVx _ | .addI _ => none

/-! ## Frames -/

/-- The pieces of the state beside the general registers and `PC`. -/
inductive Piece where
  | index | stack | delay | sound | keys | keysPrev | screen | memory | status | random
  deriving DecidableEq, Repr

/-- The piece is the same in both states; memory by every byte read, the screen by every pixel. -/
def Piece.same (p : Piece) (s t : State) : Prop :=
  match p with
  | .index => t.i = s.i
  | .stack => t.sp = s.sp ∧ ∀ k : Fin 16, t.stackEntry k = s.stackEntry k
  | .delay => t.dt = s.dt
  | .sound => t.st = s.st
  | .keys => ∀ k : KeyIx, t.key k = s.key k
  | .keysPrev => ∀ k : KeyIx, t.keyPrev k = s.keyPrev k
  | .screen => ∀ (x : Col) (y : Row), t.fb.pixel x y = s.fb.pixel x y
  | .memory => ∀ a : Nat, t.byteAt a = s.byteAt a
  | .status => t.status = s.status
  | .random => t.rngDrawn = s.rngDrawn

/-- Every piece but those listed is the same. -/
def SameExcept (ps : List Piece) (s t : State) : Prop := ∀ p : Piece, p ∉ ps → p.same s t

/-- Every general register but those listed is the same. -/
def SameRegsExcept (rs : List RegIx) (s t : State) : Prop := ∀ r : RegIx, r ∉ rs → t.reg r = s.reg r

/-- Every byte outside the `n` bytes from `a` on is the same. -/
def SameMemoryOutside (a n : Nat) (s t : State) : Prop :=
  ∀ b : Nat, b < a ∨ a + n ≤ b → t.byteAt b = s.byteAt b

/-- The general registers an instruction may write (the table of R22, and R23 for `VF`). -/
def regsWrittenBy (i : Instr) : List RegIx :=
  match i with
  | .ldImm x _ | .addImm x _ | .ldReg x _ | .orReg x _ | .andReg x _ | .xorReg x _ | .rnd x _ | .ldVxDt x
  | .ldVxK x => [x]
  | .addReg x _ | .sub x _ | .shr x _ | .subn x _ | .shl x _ => [x, 15]
  | .drw _ _ _ => [15]
  | .ldVxMem x => (List.finRange 16).filter (fun r => r ≤ x)
  | .cls | .ret | .sys _ | .jp _ | .call _ | .seImm _ _ | .sneImm _ _ | .seReg _ _ | .sneReg _ _ | .ldI _
  | .jpV0 _ | .skp _ | .sknp _ | .ldDtVx _ | .ldStVx _ | .addI _ | .ldF _ | .ldB _ | .ldMemVx _ => []

/-- The other pieces an instruction may write when it does not raise (R24, R27 to R31, R51). -/
def piecesWrittenBy (i : Instr) : List Piece :=
  match i with
  | .cls | .drw _ _ _ => [.screen]
  | .ret | .call _ => [.stack]
  | .ldI _ | .addI _ | .ldF _ => [.index]
  | .ldB _ | .ldMemVx _ => [.memory]
  | .ldDtVx _ => [.delay]
  | .ldStVx _ => [.sound]
  | .rnd _ _ => [.random]
  | .sys _ | .jp _ | .seImm _ _ | .sneImm _ _ | .seReg _ _ | .ldImm _ _ | .addImm _ _ | .ldReg _ _ | .orReg _ _
  | .andReg _ _ | .xorReg _ _ | .addReg _ _ | .sub _ _ | .shr _ _ | .subn _ _ | .shl _ _ | .sneReg _ _ | .jpV0 _
  | .skp _ | .sknp _ | .ldVxDt _ | .ldVxK _ | .ldVxMem _ => []

/-! ## Illegal words (the table of R77) -/

/-- The word is none of the 35 instructions. -/
def IllegalWord (w : Word) : Prop :=
  (fieldOp w = 0x5 ∧ fieldN w ≠ 0x0) ∨
  (fieldOp w = 0x8 ∧ fieldN w ∈ ([0x8, 0x9, 0xA, 0xB, 0xC, 0xD, 0xF] : List Nibble)) ∨
  (fieldOp w = 0x9 ∧ fieldN w ≠ 0x0) ∨
  (fieldOp w = 0xE ∧ fieldNN w ∉ ([0x9E, 0xA1] : List Byte)) ∨
  (fieldOp w = 0xF ∧ fieldNN w ∉ ([0x07, 0x0A, 0x15, 0x18, 0x1E, 0x29, 0x33, 0x55, 0x65] : List Byte))

/-! ## The pixels under a sprite (R151, R152) -/

/-- The pixel lies under a 1 bit of the sprite of `n` bytes at `I` drawn from (`x0`, `y0`): it is `c < 8` columns
right and `r < n` rows down from the start position, counted around the screen's edges, and bit `7 - c` of
sprite byte `r` is 1. -/
def underSprite (s : State) (x0 y0 n : Nat) (x : Col) (y : Row) : Bool :=
  let c := (x.val + 64 - x0 % 64) % 64
  let r := (y.val + 32 - y0 % 32) % 32
  decide (c < 8) && decide (r < n) && (s.byteAt (s.i.toNat + r)).getLsbD (7 - c)

end Sys2Proof.Safety
end

