-- ==== Sys2Proof/Certificates/Slice0/Obligations.lean ====
section
/-!
DEFINITION. The statements for the provers. `Obligations.<Name>` says what it states; its docstring names the rules
of spec/ it rests on, and where the rule is one of the spec's own decisions (spec/92_eei_decisions.md) or
inferences it names that sentence. A statement of what an instruction does is an equality with a next state of
`exec`, so it is that instruction's completion statement too. A frame lists what may change; `PC` is said apart.
-/

open Sys2Proof Sys2Proof.Machine Sys2Proof.Safety

/-! ## Encoding -/

/-- Sanity: words written out bit by bit from the patterns of the opcode map (R71, R74) decode to the instructions
they stand for, one or more for each of the 16 families 0x0 to 0xF, and three illegal words do not decode. -/
def Obligations.WrittenOutWordsDecode : Prop :=
  decodeWord 0b0000000011100000#16 = .ok .cls ∧
  decodeWord 0b0000000011101110#16 = .ok .ret ∧
  decodeWord 0b0000000011100001#16 = .ok (.sys 0x0E1) ∧
  decodeWord 0b0001001000110100#16 = .ok (.jp 0x234) ∧
  decodeWord 0b0010001000001000#16 = .ok (.call 0x208) ∧
  decodeWord 0b0011101001000010#16 = .ok (.seImm 10 0x42) ∧
  decodeWord 0b0100000111101110#16 = .ok (.sneImm 1 0xEE) ∧
  decodeWord 0b0101000100100000#16 = .ok (.seReg 1 2) ∧
  decodeWord 0b0110111110101011#16 = .ok (.ldImm 15 0xAB) ∧
  decodeWord 0b0111000100000010#16 = .ok (.addImm 1 0x02) ∧
  decodeWord 0b1000000000010100#16 = .ok (.addReg 0 1) ∧
  decodeWord 0b1000001010101110#16 = .ok (.shl 2 10) ∧
  decodeWord 0b1001001100010000#16 = .ok (.sneReg 3 1) ∧
  decodeWord 0b1010001100000000#16 = .ok (.ldI 0x300) ∧
  decodeWord 0b1011001000000001#16 = .ok (.jpV0 0x201) ∧
  decodeWord 0b1100001100001111#16 = .ok (.rnd 3 0x0F) ∧
  decodeWord 0b1101000000010101#16 = .ok (.drw 0 1 5) ∧
  decodeWord 0b1110001110011110#16 = .ok (.skp 3) ∧
  decodeWord 0b1111001001100101#16 = .ok (.ldVxMem 2) ∧
  decodeWord 0b0101000000000001#16 = .error (.unsupportedOpcode 0x5001) ∧
  decodeWord 0b1000000000011000#16 = .error (.unsupportedOpcode 0x8018) ∧
  decodeWord 0b1111000100001000#16 = .error (.unsupportedOpcode 0xF108)

/-- For every well-formed instruction, decoding its word gives it back, with every operand at every value; and so
does decoding its two bytes at the front of any byte sequence (R57, R70 to R75). -/
def Obligations.EncodeThenDecodeGivesTheInstruction : Prop :=
  ∀ i : Instr, i.wellFormed = true →
    decodeWord (encode i) = .ok i ∧
    ∀ rest : List Byte, decodeBytes (encodeBytes i ++ rest) = .ok (i, rest)

/-- A word that decodes gives a well-formed instruction whose encoding is that word: no bit of a word is lost, the
ignored fields included, so the opcode recorded by a fatal error is the word fetched (R75, R79). -/
def Obligations.DecodeThenEncodeGivesTheWord : Prop :=
  ∀ (w : Word) (i : Instr), decodeWord w = .ok i → i.wellFormed = true ∧ encode i = w

/-- The decoder by family (R75) is the first-match decoder of the opcode map (R74, R82), on all 65536 words. -/
def Obligations.DecoderAgreesWithTheOpcodeMap : Prop :=
  ∀ w : Word, decodeWord w = decodeByTable w

/-- The illegal words are exactly those of the table of R77: each of them is rejected by name, and every other word
decodes (the decoder is total, R75). -/
def Obligations.IllegalWordsAreExactlyThoseListed : Prop :=
  ∀ w : Word,
    (IllegalWord w → decodeWord w = .error (.unsupportedOpcode w)) ∧
    (¬ IllegalWord w → ∃ i, decodeWord w = .ok i)

/-- Two different rows of the opcode map select the same word only in family 0 (R74: "The three rows of family 0
overlap; rule R75 orders them. No other two rows overlap."). -/
def Obligations.OpcodeRowsOverlapOnlyInFamilyZero : Prop :=
  ∀ (w : Word) (r q : OpcodeRow), r ∈ opcodeTable → q ∈ opcodeTable →
    w &&& r.mask = r.value → w &&& q.mask = q.value → r.mnemonic = q.mnemonic ∨ fieldOp w = 0x0

/-! ## The cycle and the fatal errors -/

/-- When the two bytes at `PC` decode to an instruction, a step of a running core is `exec` of it at that state; when
it did not raise, `KEYS_PREV` becomes `KEYS`, and nothing else is added (R76 steps 2 to 5; the sampling of the keys
is the spec's decision D11). -/
def Obligations.StepRunsTheDecodedInstruction : Prop :=
  ∀ (s : State) (i : Instr), s.status = .running → s.pc.toNat ≤ 0x0FFE →
    decodeBytes [s.byteAt s.pc.toNat, s.byteAt (s.pc.toNat + 1)] = .ok (i, []) →
    ∃ t, exec i s = .next t ∧
      step s = .next (if t.status = .running then { t with keysPrev := t.keys } else t)

/-- The word at `a` is the byte at `a` times 256 plus the byte at `a + 1`, at any parity of `a` (R57); with `PC`
above 0x0FFE a step takes the fatal error `OutOfBounds`, recording `PC` and no opcode, and changes nothing else (R76
step 1, R205; the shape of the report is the spec's decision D18). -/
def Obligations.FetchIsBigEndianAndBounded : Prop :=
  (∀ (s : State) (a : Nat), a ≤ 0x0FFE →
    ∃ w, s.fetchAt a = some w ∧ w.toNat = 256 * (s.byteAt a).toNat + (s.byteAt (a + 1)).toNat) ∧
  (∀ s : State, s.status = .running → 0x0FFE < s.pc.toNat →
    step s = .next { s with status := .halted .outOfBounds s.pc none })

/-- A step whose fetched word is illegal takes the fatal error `UnsupportedOpcode`, recording `PC` and the word; no
other state changes (R77, R204, R205; the shape of the report is the spec's decision D18). -/
def Obligations.IllegalWordHaltsTheCore : Prop :=
  ∀ (s : State) (w : Word), s.status = .running → s.fetch = some w → IllegalWord w →
    step s = .next { s with status := .halted .unsupportedOpcode s.pc (some w) }

/-- R205: a step that takes a fatal error changes `STATUS` and nothing else, whatever raised it. -/
def Obligations.FatalErrorChangesOnlyStatus : Prop :=
  ∀ (s t : State) (kind : ErrorKind) (addr : Word) (opcode : Option Word), s.status = .running →
    step s = .next t → t.status = .halted kind addr opcode →
    t = { s with status := .halted kind addr opcode }

/-- The report of a fatal error carries the `PC` of the failing instruction and the word that was fetched, none when
the fetch itself failed ("Recorded" in R201 to R204; the shape of the report is the spec's decision D18). -/
def Obligations.ErrorReportNamesTheFailingInstruction : Prop :=
  ∀ (s t : State) (kind : ErrorKind) (addr : Word) (opcode : Option Word), s.status = .running →
    step s = .next t → t.status = .halted kind addr opcode →
    addr = s.pc ∧ opcode = s.fetch ∧ t.errorReport = some (kind, s.pc, s.fetch)

/-- Every instruction raises exactly in the cases the tables of R201 to R203 list, with the error they list (that a
store into the font raises is the spec's decision D5, that an index above 0x0F does is D9 for `FX29` and D10 for
`EX9E` and `EXA1`); in every other case it completes and `STATUS` stays as it was. So no instruction ends in a fault
or a refusal: that a fatal error is a next state is the model's log entry 2 (DEDUCED from R205). -/
def Obligations.InstructionRaisesExactlyInTheListedCases : Prop :=
  ∀ (i : Instr) (s : State),
    (∀ kind, fatalCause i s = some kind →
      exec i s = .next { s with status := .halted kind s.pc (some (encode i)) }) ∧
    (fatalCause i s = none → ∃ t, exec i s = .next t ∧ t.status = s.status)

/-- A step of any state answers a next state: the machine has no fault and no refusal (the model's log entry 2, read
from R205 and R231). -/
def Obligations.EveryStepAnswersANextState : Prop :=
  ∀ s : State, ∃ t, step s = .next t

/-- While `STATUS` is `Halted` no event but `Reset` changes any state (R36 point 7, R231; the spec's decision D24; for
`Step`, the model's log entry 2). -/
def Obligations.HaltedCoreIsFrozen : Prop :=
  ∀ (s : State) (e : Event), s.status ≠ .running → e ≠ .reset → e.apply s = .next s

/-- A step never writes `KEYS`; when it completes, `KEYS_PREV` ends equal to `KEYS`, and when it raises, `KEYS_PREV`
keeps its value (R30, R76 step 5; the spec's decision D11). -/
def Obligations.CompletedCycleSamplesTheKeys : Prop :=
  ∀ s t : State, s.status = .running → step s = .next t →
    t.keys = s.keys ∧
    (t.status = .running → t.keysPrev = s.keys) ∧
    (t.status ≠ .running → t.keysPrev = s.keysPrev)

/-! ## The invariant and the whole machine -/

/-- The model's invariant holds after reset: points 2 to 5 of R36, and the memory's canonical form, which is no rule
of the spec but the model's own choice (log entry 3). The reset values are the spec's decisions D1 to D4 (R35). -/
def Obligations.InvariantHoldsAtReset : Prop := Inv State.reset

/-- Every step, from every state that meets the model's invariant, keeps it: points 2 to 5 of R36 (`I <= 0x0FFF`,
`PC <= 0x10FE`, the font, the bound on the return addresses in use), and the memory's canonical form, which is no
rule of the spec but the model's own choice (log entry 3). -/
def Obligations.StepKeepsTheInvariant : Prop :=
  ∀ s t : State, Inv s → step s = .next t → Inv t

/-- Every state that any events reach from reset, in any order and number, meets the model's invariant: points 2 to
5 of R36 ("These hold in every reachable state"), and the memory's canonical form, which is no rule of the spec but
the model's own choice (log entry 3). -/
def Obligations.ReachableStatesMeetTheInvariant : Prop :=
  ∀ s : State, Reachable s → Inv s

/-- No event changes a byte of the font region 0x000 to 0x04F of a state whose font is intact; a reset puts it back
whatever it held (R54; the write protection is the spec's decision D5). -/
def Obligations.FontRegionIsConstant : Prop :=
  ∀ (s t : State) (e : Event), e.apply s = .next t →
    (e ≠ .reset → ∀ a, a < 0x050 → t.byteAt a = s.byteAt a) ∧
    (e = .reset → ∀ a, a < 0x050 → t.byteAt a = font.getD a 0)

/-- An instruction that does not raise writes no general register but those the table of R22 (and R23 for `VF`) gives
it, and of the rest of the state only the piece its rule names (R24, R27 to R31, R51). -/
def Obligations.InstructionsWriteOnlyWhatTheirRulesName : Prop :=
  ∀ (i : Instr) (s t : State), fatalCause i s = none → exec i s = .next t →
    SameRegsExcept (regsWrittenBy i) s t ∧ SameExcept (piecesWrittenBy i) s t

/-- What the environment's events may write (R12, R13, R21, R64, R221, R261, R262): a tick the two timers, a key
event the keys, a program load memory from 0x200 up and `STATUS`, quit nothing; none writes a register, `PC` or the
framebuffer (the events are the spec's decision D22, the failed load D23, the frozen halted core D24, quit D25). -/
def Obligations.EnvironmentEventsWriteOnlyTheirOwnState : Prop :=
  (∀ s, SameExcept [.delay, .sound] s (tick s) ∧ SameRegsExcept [] s (tick s) ∧ (tick s).pc = s.pc) ∧
  (∀ s k b, SameExcept [.keys] s (keySet k b s) ∧ SameRegsExcept [] s (keySet k b s) ∧
    (keySet k b s).pc = s.pc) ∧
  (∀ s bytes, SameExcept [.memory, .status] s (loadProgram bytes s) ∧
    SameRegsExcept [] s (loadProgram bytes s) ∧ (loadProgram bytes s).pc = s.pc ∧
    ∀ a, a < 0x200 ∨ 0x1000 ≤ a → (loadProgram bytes s).byteAt a = s.byteAt a) ∧
  (∀ s, quit s = s)

/-- The sound timer affects nothing but itself: two states that differ only in `ST` step to states that differ at most
in `ST` (R29: "No instruction reads it"). -/
def Obligations.SoundTimerAffectsNothingElse : Prop :=
  ∀ (s t : State) (b : Byte), step s = .next t → ∃ c, step { s with st := b } = .next { t with st := c }

/-- No instruction but `CXNN` reads the random generator: from two states that differ only in how many bytes have been
taken, any other instruction goes to states that differ only there (R11; the count is the model's own, log entry 1). -/
def Obligations.OnlyRandomReadsTheGenerator : Prop :=
  ∀ (i : Instr) (s t : State) (n : Nat), (∀ (x : RegIx) (nn : Byte), i ≠ .rnd x nn) → exec i s = .next t →
    exec i { s with rngDrawn := n } = .next { t with rngDrawn := n }

/-- The stack entries at and above `SP` are unobservable: two states that differ only there step to states that differ
only there (R27: "Entries at index `>= SP` keep their old contents; nothing can observe them"). -/
def Obligations.StaleStackEntriesAreUnobservable : Prop :=
  ∀ (s t : State) (stack : Vector Word 16),
    (∀ k : Fin 16, k.val < s.sp.val → stack[k.val] = s.stackEntry k) → step s = .next t →
    ∃ stack' : Vector Word 16, step { s with stack := stack } = .next { t with stack := stack' } ∧
      ∀ k : Fin 16, k.val < t.sp.val → stack'[k.val] = t.stackEntry k

/-! ## Control transfer (40_flow.md) -/

/-- R102: every word of family 0 but 0x00E0 and 0x00EE is `0NNN`, and `0NNN` advances `PC` by 2 and changes nothing
else, whatever `NNN` is. -/
def Obligations.LegacyCallIsANoOp : Prop :=
  (∀ w : Word, fieldOp w = 0x0 → w ≠ 0x00E0#16 → w ≠ 0x00EE#16 → decodeWord w = .ok (.sys (fieldNNN w))) ∧
  ∀ (s : State) (nnn : Addr12), ∃ t, exec (.sys nnn) s = .next t ∧
    t.pc = s.pc + 2 ∧ SameRegsExcept [] s t ∧ SameExcept [] s t

/-- R103: every word of family 1 is `1NNN`, and `1NNN` loads `NNN` into `PC`, odd or even, and changes nothing else. -/
def Obligations.JumpLoadsItsTarget : Prop :=
  (∀ w : Word, fieldOp w = 0x1 → decodeWord w = .ok (.jp (fieldNNN w))) ∧
  ∀ (s : State) (nnn : Addr12), ∃ t, exec (.jp nnn) s = .next t ∧
    t.pc.toNat = nnn.toNat ∧ SameRegsExcept [] s t ∧ SameExcept [] s t

/-- R104: every word of family 2 is `2NNN`, and `2NNN` pushes `PC + 2`, counts it in `SP`, and jumps; with 16
entries in use it takes `StackOverflow`, recording `PC` and the word, and changes nothing else. -/
def Obligations.CallPushesTheReturnAddress : Prop :=
  (∀ w : Word, fieldOp w = 0x2 → decodeWord w = .ok (.call (fieldNNN w))) ∧
  ∀ (s : State) (nnn : Addr12),
    (s.sp.val < 16 → ∃ t, exec (.call nnn) s = .next t ∧
      t.pc.toNat = nnn.toNat ∧ t.sp.val = s.sp.val + 1 ∧
      (∀ k : Fin 16, t.stackEntry k = if k.val = s.sp.val then s.pc + 2 else s.stackEntry k) ∧
      SameRegsExcept [] s t ∧ SameExcept [.stack] s t) ∧
    (s.sp.val = 16 → exec (.call nnn) s =
      .next { s with status := .halted .stackOverflow s.pc (some (encode (.call nnn))) })

/-- R101: `00EE`, the word 0x00EE, with `k + 1` entries in use loads entry `k` into `PC`, with no advance after it,
and leaves `k` in use, every slot keeping its value; with an empty stack it takes `StackUnderflow`, recording `PC`
and 0x00EE, and changes nothing else. -/
def Obligations.ReturnPopsIntoPc : Prop :=
  decodeWord 0x00EE = .ok .ret ∧
  ∀ s : State,
    (∀ k : Fin 16, s.sp.val = k.val + 1 → ∃ t, exec .ret s = .next t ∧
      t.pc = s.stackEntry k ∧ t.sp.val = k.val ∧ (∀ j : Fin 16, t.stackEntry j = s.stackEntry j) ∧
      SameRegsExcept [] s t ∧ SameExcept [.stack] s t) ∧
    (s.sp.val = 0 → exec .ret s = .next { s with status := .halted .stackUnderflow s.pc (some 0x00EE) })

/-- The document's property of `2NNN` and `00EE` (95_test_vectors.md L1-6): a return from any state that has the stack
the call left lands on the instruction after the call, and the entries in use are those from before the call. -/
def Obligations.ReturnComesBackAfterTheCall : Prop :=
  ∀ (s t u : State) (nnn : Addr12), s.sp.val < 16 → exec (.call nnn) s = .next t →
    u.sp = t.sp → (∀ k : Fin 16, u.stackEntry k = t.stackEntry k) →
    ∃ v, exec .ret u = .next v ∧ v.pc = s.pc + 2 ∧ v.sp = s.sp ∧
      ∀ k : Fin 16, k.val < s.sp.val → v.stackEntry k = s.stackEntry k

/-- `BNNN` loads the whole sum of `V[0]` and `NNN` into `PC` and changes nothing else (R105; that the sum is not
reduced to 12 bits is the spec's decision D16). -/
def Obligations.OffsetJumpAddsV0 : Prop :=
  ∀ (s : State) (nnn : Addr12), ∃ t, exec (.jpV0 nnn) s = .next t ∧
    t.pc.toNat = (s.reg 0).toNat + nnn.toNat ∧ SameRegsExcept [] s t ∧ SameExcept [] s t

/-! ## Skips (41_skip.md) -/

/-- R110 to R113: each register-compare skip adds 4 to `PC` when its condition holds and 2 when it does not, and changes
nothing else; the words of families 3 and 4, and those of families 5 and 9 with low digit 0, are these instructions,
and the other words of families 5 and 9 are `UnsupportedOpcode`. -/
def Obligations.CompareSkipsMovePcByFourOrTwo : Prop :=
  (∀ w : Word,
    (fieldOp w = 0x3 → decodeWord w = .ok (.seImm (fieldX w) (fieldNN w))) ∧
    (fieldOp w = 0x4 → decodeWord w = .ok (.sneImm (fieldX w) (fieldNN w))) ∧
    (fieldOp w = 0x5 → fieldN w = 0x0 → decodeWord w = .ok (.seReg (fieldX w) (fieldY w))) ∧
    (fieldOp w = 0x5 → fieldN w ≠ 0x0 → decodeWord w = .error (.unsupportedOpcode w)) ∧
    (fieldOp w = 0x9 → fieldN w = 0x0 → decodeWord w = .ok (.sneReg (fieldX w) (fieldY w))) ∧
    (fieldOp w = 0x9 → fieldN w ≠ 0x0 → decodeWord w = .error (.unsupportedOpcode w))) ∧
  ∀ (s : State) (x y : RegIx) (nn : Byte),
    (∃ t, exec (.seImm x nn) s = .next t ∧ (s.reg x = nn → t.pc = s.pc + 4) ∧
      (s.reg x ≠ nn → t.pc = s.pc + 2) ∧ SameRegsExcept [] s t ∧ SameExcept [] s t) ∧
    (∃ t, exec (.sneImm x nn) s = .next t ∧ (s.reg x ≠ nn → t.pc = s.pc + 4) ∧
      (s.reg x = nn → t.pc = s.pc + 2) ∧ SameRegsExcept [] s t ∧ SameExcept [] s t) ∧
    (∃ t, exec (.seReg x y) s = .next t ∧ (s.reg x = s.reg y → t.pc = s.pc + 4) ∧
      (s.reg x ≠ s.reg y → t.pc = s.pc + 2) ∧ SameRegsExcept [] s t ∧ SameExcept [] s t) ∧
    (∃ t, exec (.sneReg x y) s = .next t ∧ (s.reg x ≠ s.reg y → t.pc = s.pc + 4) ∧
      (s.reg x = s.reg y → t.pc = s.pc + 2) ∧ SameRegsExcept [] s t ∧ SameExcept [] s t)

/-! ## Register load, arithmetic, logic, shift, random (42_alu.md) -/

/-- R121: every word of family 7 is `7XNN`, which puts the sum modulo 256 into `V[X]`; no other register, `VF`
included, and nothing else changes. -/
def Obligations.AddImmediateWrapsWithoutCarry : Prop :=
  (∀ w : Word, fieldOp w = 0x7 → decodeWord w = .ok (.addImm (fieldX w) (fieldNN w))) ∧
  ∀ (s : State) (x : RegIx) (nn : Byte), ∃ t, exec (.addImm x nn) s = .next t ∧
    (t.reg x).toNat = ((s.reg x).toNat + nn.toNat) % 256 ∧ t.pc = s.pc + 2 ∧
    SameRegsExcept [x] s t ∧ SameExcept [] s t

/-- `6XNN` puts `NN`, and `8XY0` puts `V[Y]`, into `V[X]`; no other register and nothing else changes (R120, R122;
that `VF` is not written is the spec's decision D15). -/
def Obligations.LoadsWriteOnlyTheirRegister : Prop :=
  ∀ (s : State) (x y : RegIx) (nn : Byte),
    (∃ t, exec (.ldImm x nn) s = .next t ∧ t.reg x = nn ∧ t.pc = s.pc + 2 ∧
      SameRegsExcept [x] s t ∧ SameExcept [] s t) ∧
    (∃ t, exec (.ldReg x y) s = .next t ∧ t.reg x = s.reg y ∧ t.pc = s.pc + 2 ∧
      SameRegsExcept [x] s t ∧ SameExcept [] s t)

/-- `8XY1`, `8XY2`, `8XY3` work bit by bit on `V[X]` and `V[Y]`, and write no other register, `VF` included (R123 to
R125; that `VF` is not reset is the spec's decision D15). -/
def Obligations.LogicOperationsAreBitwise : Prop :=
  ∀ (s : State) (x y : RegIx),
    (∃ t, exec (.orReg x y) s = .next t ∧
      (∀ k, (t.reg x).getLsbD k = ((s.reg x).getLsbD k || (s.reg y).getLsbD k)) ∧ t.pc = s.pc + 2 ∧
      SameRegsExcept [x] s t ∧ SameExcept [] s t) ∧
    (∃ t, exec (.andReg x y) s = .next t ∧
      (∀ k, (t.reg x).getLsbD k = ((s.reg x).getLsbD k && (s.reg y).getLsbD k)) ∧ t.pc = s.pc + 2 ∧
      SameRegsExcept [x] s t ∧ SameExcept [] s t) ∧
    (∃ t, exec (.xorReg x y) s = .next t ∧
      (∀ k, (t.reg x).getLsbD k = xor ((s.reg x).getLsbD k) ((s.reg y).getLsbD k)) ∧ t.pc = s.pc + 2 ∧
      SameRegsExcept [x] s t ∧ SameExcept [] s t)

/-- R126: `8XY4` puts the sum modulo 256 into `V[X]` and then the carry into `VF`: 1 when the unwrapped sum exceeds
255, else 0; with `X = 0xF` the carry stays. Both operands are those from before the instruction. A word of family 8
with low digit 4 is `8XY4`. -/
def Obligations.AddRegistersSetsCarry : Prop :=
  (∀ w : Word, fieldOp w = 0x8 → fieldN w = 0x4 → decodeWord w = .ok (.addReg (fieldX w) (fieldY w))) ∧
  ∀ (s : State) (x y : RegIx), ∃ t, exec (.addReg x y) s = .next t ∧
    (x ≠ 15 → (t.reg x).toNat = ((s.reg x).toNat + (s.reg y).toNat) % 256) ∧
    (255 < (s.reg x).toNat + (s.reg y).toNat → t.reg 15 = 0x01) ∧
    ((s.reg x).toNat + (s.reg y).toNat ≤ 255 → t.reg 15 = 0x00) ∧
    t.pc = s.pc + 2 ∧ SameRegsExcept [x, 15] s t ∧ SameExcept [] s t

/-- R127, R129: `8XY5` puts `V[X] - V[Y]`, and `8XY7` puts `V[Y] - V[X]`, modulo 256 into `V[X]`, and then 1 into
`VF` when the minuend was at least the subtrahend, else 0; with `X = 0xF` the flag stays. A word of family 8 with
low digit 5 is the first, with low digit 7 the second. -/
def Obligations.SubtractionsSetNotBorrow : Prop :=
  (∀ w : Word, fieldOp w = 0x8 → (fieldN w = 0x5 → decodeWord w = .ok (.sub (fieldX w) (fieldY w))) ∧
    (fieldN w = 0x7 → decodeWord w = .ok (.subn (fieldX w) (fieldY w)))) ∧
  ∀ (s : State) (x y : RegIx),
    (∃ t, exec (.sub x y) s = .next t ∧
      (x ≠ 15 → (t.reg x).toNat = ((s.reg x).toNat + 256 - (s.reg y).toNat) % 256) ∧
      ((s.reg y).toNat ≤ (s.reg x).toNat → t.reg 15 = 0x01) ∧
      ((s.reg x).toNat < (s.reg y).toNat → t.reg 15 = 0x00) ∧
      t.pc = s.pc + 2 ∧ SameRegsExcept [x, 15] s t ∧ SameExcept [] s t) ∧
    (∃ t, exec (.subn x y) s = .next t ∧
      (x ≠ 15 → (t.reg x).toNat = ((s.reg y).toNat + 256 - (s.reg x).toNat) % 256) ∧
      ((s.reg x).toNat ≤ (s.reg y).toNat → t.reg 15 = 0x01) ∧
      ((s.reg y).toNat < (s.reg x).toNat → t.reg 15 = 0x00) ∧
      t.pc = s.pc + 2 ∧ SameRegsExcept [x, 15] s t ∧ SameExcept [] s t)

/-- R128, R130: `8XY6` halves `V[X]` and puts its old bit 0 into `VF`; `8XYE` doubles it modulo 256 and puts its old
bit 7 into `VF`; `Y` plays no part; the flag is written last, so with `X = 0xF` it stays. A word of family 8 with
low digit 6 is the first, with low digit E the second, whatever its `Y`. -/
def Obligations.ShiftsMoveOneBitIntoVf : Prop :=
  (∀ w : Word, fieldOp w = 0x8 → (fieldN w = 0x6 → decodeWord w = .ok (.shr (fieldX w) (fieldY w))) ∧
    (fieldN w = 0xE → decodeWord w = .ok (.shl (fieldX w) (fieldY w)))) ∧
  ∀ (s : State) (x y : RegIx),
    (∃ t, exec (.shr x y) s = .next t ∧
      (x ≠ 15 → (t.reg x).toNat = (s.reg x).toNat / 2) ∧ (t.reg 15).toNat = (s.reg x).toNat % 2 ∧
      t.pc = s.pc + 2 ∧ SameRegsExcept [x, 15] s t ∧ SameExcept [] s t) ∧
    (∃ t, exec (.shl x y) s = .next t ∧
      (x ≠ 15 → (t.reg x).toNat = 2 * (s.reg x).toNat % 256) ∧ (t.reg 15).toNat = (s.reg x).toNat / 128 ∧
      t.pc = s.pc + 2 ∧ SameRegsExcept [x, 15] s t ∧ SameExcept [] s t)

/-- `CXNN` takes exactly one byte from the generator, whatever it is, and puts its AND with `NN` into `V[X]`, so no bit
is set that `NN` has clear (R131; one byte per `CXNN` is the spec's decision D20; the byte is the model's free value,
log entry 1). -/
def Obligations.RandomByteIsMasked : Prop :=
  ∀ (s : State) (x : RegIx) (nn : Byte), ∃ t, exec (.rnd x nn) s = .next t ∧
    t.reg x = Config.randByte s.rngDrawn &&& nn ∧
    (∀ k, nn.getLsbD k = false → (t.reg x).getLsbD k = false) ∧
    t.rngDrawn = s.rngDrawn + 1 ∧ t.pc = s.pc + 2 ∧ SameRegsExcept [x] s t ∧ SameExcept [.random] s t

/-! ## Index register and memory transfer (43_index_memory.md) -/

/-- R140: every word of family A is `ANNN`, which loads `NNN` into `I` and changes nothing else. -/
def Obligations.LoadIndexSetsI : Prop :=
  (∀ w : Word, fieldOp w = 0xA → decodeWord w = .ok (.ldI (fieldNNN w))) ∧
  ∀ (s : State) (nnn : Addr12), ∃ t, exec (.ldI nnn) s = .next t ∧
    t.i.toNat = nnn.toNat ∧ t.pc = s.pc + 2 ∧ SameRegsExcept [] s t ∧ SameExcept [.index] s t

/-- `FX1E` adds `V[X]` to `I` modulo 0x1000 and writes no flag (R141; the modulus is the spec's decision D17, the flag
D15). -/
def Obligations.AddToIndexWrapsInTheAddressSpace : Prop :=
  ∀ (s : State) (x : RegIx), ∃ t, exec (.addI x) s = .next t ∧
    t.i.toNat = (s.i.toNat + (s.reg x).toNat) % 0x1000 ∧ t.pc = s.pc + 2 ∧
    SameRegsExcept [] s t ∧ SameExcept [.index] s t

/-- `FX29` points `I` at glyph `V[X]`, five bytes a glyph; when `V[X]` is above 0x0F it takes `OutOfBounds` and changes
nothing else (R142; the error is the spec's decision D9). -/
def Obligations.FontLookupPointsAtTheGlyph : Prop :=
  ∀ (s : State) (x : RegIx),
    ((s.reg x).toNat ≤ 0x0F → ∃ t, exec (.ldF x) s = .next t ∧
      t.i.toNat = 5 * (s.reg x).toNat ∧ t.pc = s.pc + 2 ∧ SameRegsExcept [] s t ∧ SameExcept [.index] s t) ∧
    (0x0F < (s.reg x).toNat → exec (.ldF x) s =
      .next { s with status := .halted .outOfBounds s.pc (some (encode (.ldF x))) })

/-- `FX33` with `0x0050 <= I <= 0x0FFD` stores the hundreds, tens and ones digit of `V[X]` at `I`, `I + 1`, `I + 2`;
every other byte, every register and `I` stay (R143; the font bound is the spec's decision D5). -/
def Obligations.DecimalDigitsAreStored : Prop :=
  ∀ (s : State) (x : RegIx), 0x0050 ≤ baseOf s.i → baseOf s.i ≤ 0x0FFD →
    ∃ t, exec (.ldB x) s = .next t ∧
      (t.byteAt (baseOf s.i)).toNat = (s.reg x).toNat / 100 ∧
      (t.byteAt (baseOf s.i + 1)).toNat = (s.reg x).toNat / 10 % 10 ∧
      (t.byteAt (baseOf s.i + 2)).toNat = (s.reg x).toNat % 10 ∧
      SameMemoryOutside (baseOf s.i) 3 s t ∧ t.pc = s.pc + 2 ∧
      SameRegsExcept [] s t ∧ SameExcept [.memory] s t

/-- `FX55` with `0x0050 <= I` and `I + X <= 0x0FFF` stores `V[0]` to `V[X]` at `I` to `I + X`; every other byte, every
register and `I` stay (R144; that `I` stays is the spec's decision D14, the font bound D5). -/
def Obligations.RegistersAreStoredUpToX : Prop :=
  ∀ (s : State) (x : RegIx), 0x0050 ≤ baseOf s.i → baseOf s.i + x.val ≤ 0x0FFF →
    ∃ t, exec (.ldMemVx x) s = .next t ∧
      (∀ r : RegIx, r ≤ x → t.byteAt (baseOf s.i + r.val) = s.reg r) ∧
      SameMemoryOutside (baseOf s.i) (x.val + 1) s t ∧ t.pc = s.pc + 2 ∧
      SameRegsExcept [] s t ∧ SameExcept [.memory] s t

/-- `FX65` with `I + X <= 0x0FFF` loads `V[0]` to `V[X]` from `I` to `I + X`, from any region; every other register,
memory and `I` stay (R145; that `I` stays is the spec's decision D14). -/
def Obligations.RegistersAreLoadedUpToX : Prop :=
  ∀ (s : State) (x : RegIx), baseOf s.i + x.val ≤ 0x0FFF →
    ∃ t, exec (.ldVxMem x) s = .next t ∧
      (∀ r : RegIx, r ≤ x → t.reg r = s.byteAt (baseOf s.i + r.val)) ∧
      (∀ r : RegIx, x < r → t.reg r = s.reg r) ∧ t.pc = s.pc + 2 ∧ SameExcept [] s t

/-- The document's round trip (95_test_vectors.md L1-5): `FX55` that does not raise, followed by `FX65` with the
same `X`, leaves every register as it was, and `I` too (that a store needs `I` at least 0x0050 is the spec's
decision D5, that `I` stays is D14). -/
def Obligations.StoreThenLoadRoundTrips : Prop :=
  ∀ (s : State) (x : RegIx), 0x0050 ≤ baseOf s.i → baseOf s.i + x.val ≤ 0x0FFF →
    ∃ t u, exec (.ldMemVx x) s = .next t ∧ exec (.ldVxMem x) t = .next u ∧
      SameRegsExcept [] s u ∧ u.i = s.i ∧ u.pc = s.pc + 2 + 2 ∧ SameExcept [.memory] s u

/-- A store is seen by every later fetch (R63): after `FX55`, any state with the memory it left fetches, at a stored
address with another stored byte after it, the word made of the two registers stored there (that a store needs `I`
at least 0x0050 is the spec's decision D5). -/
def Obligations.StoredBytesAreFetched : Prop :=
  ∀ (s t u : State) (x r q : RegIx), 0x0050 ≤ baseOf s.i → baseOf s.i + x.val ≤ 0x0FFF →
    exec (.ldMemVx x) s = .next t → r.val + 1 = q.val → q ≤ x →
    u.mem = t.mem → u.pc.toNat = baseOf s.i + r.val →
    ∃ w, u.fetch = some w ∧ w.toNat = 256 * (s.reg r).toNat + (s.reg q).toNat

/-! ## Framebuffer (44_display.md) -/

/-- R150: `00E0`, the word 0x00E0, clears all 2048 pixels, advances `PC` by 2 and writes nothing else, `VF` included. -/
def Obligations.ClearBlanksTheScreen : Prop :=
  decodeWord 0x00E0 = .ok .cls ∧
  ∀ s : State, ∃ t, exec .cls s = .next t ∧ (∀ (x : Col) (y : Row), t.fb.pixel x y = false) ∧
    t.pc = s.pc + 2 ∧ SameRegsExcept [] s t ∧ SameExcept [.screen] s t

/-- `DXYN` with its sprite bytes in memory flips exactly the pixels under a 1 bit of the sprite, wrapped around both
edges, and `VF` is 1 when one of them was set and 0 otherwise, the coordinates being read before `VF` is written;
every other register, `I` and memory stay (R151, R152; `N = 0` is the spec's decision D13, the bit order D12). -/
def Obligations.DrawXorsTheSprite : Prop :=
  ∀ (s : State) (x y : RegIx) (n : Nibble), n = 0 ∨ baseOf s.i + n.toNat ≤ 0x1000 →
    ∃ t, exec (.drw x y n) s = .next t ∧
      (∀ (px : Col) (py : Row), t.fb.pixel px py =
        xor (s.fb.pixel px py) (underSprite s (s.reg x).toNat (s.reg y).toNat n.toNat px py)) ∧
      ((∃ (px : Col) (py : Row), underSprite s (s.reg x).toNat (s.reg y).toNat n.toNat px py = true ∧
          s.fb.pixel px py = true) → t.reg 15 = 0x01) ∧
      ((¬ ∃ (px : Col) (py : Row), underSprite s (s.reg x).toNat (s.reg y).toNat n.toNat px py = true ∧
          s.fb.pixel px py = true) → t.reg 15 = 0x00) ∧
      t.pc = s.pc + 2 ∧ SameRegsExcept [15] s t ∧ SameExcept [.screen] s t

/-- The document's double-XOR property (95_test_vectors.md L1-4, 90_conflicts.md C9): with `X` and `Y` not `VF`, two
draws of the same sprite leave the framebuffer as it was, and the second `VF` is 1 exactly when some pixel under a 1
bit was clear before the first (the bit order is the spec's decision D12, `N = 0` is D13). -/
def Obligations.DrawingTwiceRestoresTheScreen : Prop :=
  ∀ (s : State) (x y : RegIx) (n : Nibble), x ≠ 15 → y ≠ 15 → n = 0 ∨ baseOf s.i + n.toNat ≤ 0x1000 →
    ∃ t u, exec (.drw x y n) s = .next t ∧ exec (.drw x y n) t = .next u ∧
      SameExcept [] s u ∧ SameRegsExcept [15] s u ∧
      ((∃ (px : Col) (py : Row), underSprite s (s.reg x).toNat (s.reg y).toNat n.toNat px py = true ∧
          s.fb.pixel px py = false) → u.reg 15 = 0x01) ∧
      ((¬ ∃ (px : Col) (py : Row), underSprite s (s.reg x).toNat (s.reg y).toNat n.toNat px py = true ∧
          s.fb.pixel px py = false) → u.reg 15 = 0x00)

/-! ## Keypad and timers (45_keypad_timers.md, 60_exceptions.md) -/

/-- `EX9E` skips when key `V[X]` is down and `EXA1` when it is up, by the level of the key; a `V[X]` above 0x0F is
`OutOfBounds` and changes nothing else (R160, R161; the error is the spec's decision D10). -/
def Obligations.KeySkipsTestTheLevel : Prop :=
  ∀ (s : State) (x : RegIx),
    (∀ k : KeyIx, (s.reg x).toNat = k.val →
      (∃ t, exec (.skp x) s = .next t ∧ (s.key k = true → t.pc = s.pc + 4) ∧ (s.key k = false → t.pc = s.pc + 2) ∧
        SameRegsExcept [] s t ∧ SameExcept [] s t) ∧
      (∃ t, exec (.sknp x) s = .next t ∧ (s.key k = false → t.pc = s.pc + 4) ∧ (s.key k = true → t.pc = s.pc + 2) ∧
        SameRegsExcept [] s t ∧ SameExcept [] s t)) ∧
    (0x0F < (s.reg x).toNat →
      exec (.skp x) s = .next { s with status := .halted .outOfBounds s.pc (some (encode (.skp x))) } ∧
      exec (.sknp x) s = .next { s with status := .halted .outOfBounds s.pc (some (encode (.sknp x))) })

/-- `FX0A` with some key gone down since the last completed cycle puts the lowest such key into `V[X]` and advances;
with none it changes nothing, so the next cycle fetches it again (R163; the detection and the choice of the lowest
key are the spec's decision D11). -/
def Obligations.WaitForKeyTakesTheLowestNewKey : Prop :=
  ∀ (s : State) (x : RegIx),
    (∀ k : KeyIx, s.key k = true → s.keyPrev k = false →
      (∀ j : KeyIx, j < k → s.key j = true → s.keyPrev j = true) →
      ∃ t, exec (.ldVxK x) s = .next t ∧ (t.reg x).toNat = k.val ∧ t.pc = s.pc + 2 ∧
        SameRegsExcept [x] s t ∧ SameExcept [] s t) ∧
    ((∀ k : KeyIx, s.key k = true → s.keyPrev k = true) → exec (.ldVxK x) s = .next s)

/-- `FX07` copies the delay timer into `V[X]`, `FX15` copies `V[X]` into the delay timer, `FX18` into the sound
timer, which the sound line follows; nothing else changes (R162, R164, R165, R226; the bit `sound_active` is the
spec's decision D27). The words of family F with low byte 0x07, 0x15 and 0x18 are these. -/
def Obligations.TimerTransfersCopyOneByte : Prop :=
  (∀ w : Word, fieldOp w = 0xF → (fieldNN w = 0x07 → decodeWord w = .ok (.ldVxDt (fieldX w))) ∧
    (fieldNN w = 0x15 → decodeWord w = .ok (.ldDtVx (fieldX w))) ∧
    (fieldNN w = 0x18 → decodeWord w = .ok (.ldStVx (fieldX w)))) ∧
  ∀ (s : State) (x : RegIx),
    (∃ t, exec (.ldVxDt x) s = .next t ∧ t.reg x = s.dt ∧ t.pc = s.pc + 2 ∧
      SameRegsExcept [x] s t ∧ SameExcept [] s t) ∧
    (∃ t, exec (.ldDtVx x) s = .next t ∧ t.dt = s.reg x ∧ t.pc = s.pc + 2 ∧
      SameRegsExcept [] s t ∧ SameExcept [.delay] s t) ∧
    (∃ t, exec (.ldStVx x) s = .next t ∧ t.st = s.reg x ∧ (t.soundActive = true ↔ s.reg x ≠ 0x00) ∧ t.pc = s.pc + 2 ∧
      SameRegsExcept [] s t ∧ SameExcept [.sound] s t)

/-- R221: a tick of a running core takes 1 from each timer that is not 0, each on its own, and a timer at 0 stays at 0;
nothing else changes. -/
def Obligations.TickCountsDownEachTimer : Prop :=
  ∀ s : State, s.status = .running →
    (s.dt ≠ 0 → (tick s).dt.toNat + 1 = s.dt.toNat) ∧ (s.dt = 0 → (tick s).dt = 0) ∧
    (s.st ≠ 0 → (tick s).st.toNat + 1 = s.st.toNat) ∧ (s.st = 0 → (tick s).st = 0) ∧
    SameExcept [.delay, .sound] s (tick s) ∧ SameRegsExcept [] s (tick s) ∧ (tick s).pc = s.pc

/-- A timer that holds `n` is 0 at the `n`-th tick and at every later one, and not before (R221, R222; the document's
"Timers never underflow below 0 regardless of tick count once at 0"); the sound line follows the sound timer (R226;
its name is the spec's decision D27). -/
def Obligations.TimersReachZeroAndStay : Prop :=
  ∀ (n : Nat) (s : State), s.status = .running →
    ((tick^[n] s).dt = 0 ↔ s.dt.toNat ≤ n) ∧ ((tick^[n] s).st = 0 ↔ s.st.toNat ≤ n) ∧
    ((tick^[n] s).soundActive = true ↔ n < s.st.toNat)

/-! ## The other events and the schedule (20_memory.md, 70_reset_and_hazards.md) -/

/-- A key event on a running core writes that one key and leaves `KEYS_PREV` to the next completed step (R13, R227; the
event is the spec's decision D22). -/
def Obligations.KeyEventWritesOneKey : Prop :=
  ∀ (s : State) (k : KeyIx) (b : Bool), s.status = .running →
    (∀ j : KeyIx, (keySet k b s).key j = if j = k then b else s.key j) ∧
    SameExcept [.keys] s (keySet k b s) ∧ SameRegsExcept [] s (keySet k b s) ∧ (keySet k b s).pc = s.pc

/-- A program of at most 3584 bytes is copied to 0x200 and up and nothing else changes; a longer one is not copied at
all and halts the core with `OutOfBounds` at 0x0200 (R64; how the failure is recorded is the spec's decision D23). -/
def Obligations.ProgramLoadCopiesOrHalts : Prop :=
  ∀ (s : State) (bytes : List Byte), s.status = .running →
    (bytes.length ≤ 3584 →
      (∀ k, k < bytes.length → (loadProgram bytes s).byteAt (0x200 + k) = bytes.getD k 0) ∧
      SameMemoryOutside 0x200 bytes.length s (loadProgram bytes s) ∧
      SameExcept [.memory] s (loadProgram bytes s) ∧ SameRegsExcept [] s (loadProgram bytes s) ∧
      (loadProgram bytes s).pc = s.pc) ∧
    (3584 < bytes.length →
      loadProgram bytes s = { s with status := .halted .outOfBounds 0x0200 none })

/-- `Reset` in any state, halted or not, gives the values of R35: registers, `I`, `SP`, the stack, the timers, the keys
and the framebuffer zero, `PC = 0x0200`, memory the font and then 0x00, running (R250; the values are the spec's
decisions D1 to D4 and D18). The random generator goes on where it was (R34; the model's log entry 1). -/
def Obligations.ResetGivesTheResetValues : Prop :=
  ∀ s : State, ∃ t, Event.reset.apply s = .next t ∧
    (∀ r : RegIx, t.reg r = 0x00) ∧ t.i = 0x0000 ∧ t.pc = 0x0200 ∧ t.sp.val = 0 ∧
    (∀ k : Fin 16, t.stackEntry k = 0x0000) ∧ t.dt = 0x00 ∧ t.st = 0x00 ∧
    (∀ k : KeyIx, t.key k = false ∧ t.keyPrev k = false) ∧
    (∀ (x : Col) (y : Row), t.fb.pixel x y = false) ∧
    (∀ a, a < 80 → some (t.byteAt a) = font[a]?) ∧ (∀ a, 80 ≤ a → t.byteAt a = 0x00) ∧
    t.status = .running ∧ t.rngDrawn = s.rngDrawn

/-- Every run of the model's scheduler loop is a run of some sequence of `Step`, `Tick` and `KeySet` events, for any
`CYCLES_PER_TICK` and any list of turns with any key events at the start of each, so a claim about all interleavings
holds for that loop (R256). That the loop is a finite list of turns, with key events only at the start of a turn, is
the model's choice (log entry 6): R256 also allows a `KeySet` between any two steps, which `runEvents` has. The
order inside a turn is the spec's decision D19. -/
def Obligations.ScheduleIsAnInterleavingOfEvents : Prop :=
  ∀ (cyclesPerTick : Nat) (frames : List (List (KeyIx × Bool))) (s t : State),
    runSchedule cyclesPerTick frames s = .next t →
    ∃ es : List Event, (∀ e ∈ es, e = .step ∨ e = .tick ∨ ∃ k b, e = .keySet k b) ∧
      runEvents es s = .next t

/-- Every event, from every state that meets the model's invariant, keeps it: a step, a tick, a key, a program load
of any bytes, a reset, quit. The invariant is points 2 to 5 of R36, and the memory's canonical form, which is no
rule of the spec but the model's own choice (log entry 3). -/
def Obligations.EveryEventKeepsTheInvariant : Prop :=
  ∀ (s t : State) (e : Event), Inv s → e.apply s = .next t → Inv t
end

