-- ==== Sys2Proof/Laws/Encoding.lean ====
section
/-!
SUPPORT. The fields of the words each format makes (rules R71, R72), so that proofs about decoding and encoding
cite these and do not take bit vectors apart again.
-/

namespace Sys2Proof

/-! ## Slices of a concatenation -/

/-- A slice of the high part. -/
theorem slice_high (x : BitVec m) (y : BitVec n) (k l : Nat) :
    (x ++ y).extractLsb' (n + k) l = x.extractLsb' k l := by
  ext j hj
  simp [BitVec.getLsbD_append, Nat.add_assoc]

/-- A slice of the low part. -/
theorem slice_low (x : BitVec m) (y : BitVec n) (k l : Nat) (h : k + l ≤ n) :
    (x ++ y).extractLsb' k l = y.extractLsb' k l := by
  ext j hj
  simp [BitVec.getLsbD_append, show k + j < n by omega]

theorem slice_all (x : BitVec n) : x.extractLsb' 0 n = x := by
  ext j hj
  simp

theorem toFin_regField (x : RegIx) : (regField x).toFin = x := rfl

/-! ## Format `NNN` -/

@[simp] theorem fieldOp_formNNN (op : BitVec 4) (nnn : Addr12) : fieldOp (formNNN op nnn) = op.toNat :=
  congrArg BitVec.toNat ((slice_high op nnn 0 4).trans (slice_all op))

@[simp] theorem fieldNNN_formNNN (op : BitVec 4) (nnn : Addr12) : fieldNNN (formNNN op nnn) = nnn :=
  (slice_low op nnn 0 12 (by decide)).trans (slice_all nnn)

/-! ## Formats `XNN` and `X` -/

@[simp] theorem fieldOp_formXNN (op : BitVec 4) (x : RegIx) (nn : Byte) :
    fieldOp (formXNN op x nn) = op.toNat :=
  congrArg BitVec.toNat ((slice_high (op ++ regField x) nn 4 4).trans
    ((slice_high op (regField x) 0 4).trans (slice_all op)))

@[simp] theorem fieldX_formXNN (op : BitVec 4) (x : RegIx) (nn : Byte) : fieldX (formXNN op x nn) = x :=
  congrArg BitVec.toFin ((slice_high (op ++ regField x) nn 0 4).trans
    ((slice_low op (regField x) 0 4 (by decide)).trans (slice_all _)))

@[simp] theorem fieldNN_formXNN (op : BitVec 4) (x : RegIx) (nn : Byte) : fieldNN (formXNN op x nn) = nn :=
  (slice_low (op ++ regField x) nn 0 8 (by decide)).trans (slice_all nn)

theorem formX_eq (op : BitVec 4) (x : RegIx) (sub : Byte) : formX op x sub = formXNN op x sub := rfl

@[simp] theorem fieldOp_formX (op : BitVec 4) (x : RegIx) (sub : Byte) : fieldOp (formX op x sub) = op.toNat :=
  fieldOp_formXNN op x sub

@[simp] theorem fieldX_formX (op : BitVec 4) (x : RegIx) (sub : Byte) : fieldX (formX op x sub) = x :=
  fieldX_formXNN op x sub

@[simp] theorem fieldNN_formX (op : BitVec 4) (x : RegIx) (sub : Byte) : fieldNN (formX op x sub) = sub :=
  fieldNN_formXNN op x sub

/-! ## Formats `XY` and `XYN` -/

@[simp] theorem fieldOp_formXY (op : BitVec 4) (x y : RegIx) (n : Nibble) :
    fieldOp (formXY op x y n) = op.toNat :=
  congrArg BitVec.toNat ((slice_high (op ++ regField x ++ regField y) n 8 4).trans
    ((slice_high (op ++ regField x) (regField y) 4 4).trans
      ((slice_high op (regField x) 0 4).trans (slice_all op))))

@[simp] theorem fieldX_formXY (op : BitVec 4) (x y : RegIx) (n : Nibble) : fieldX (formXY op x y n) = x :=
  congrArg BitVec.toFin ((slice_high (op ++ regField x ++ regField y) n 4 4).trans
    ((slice_high (op ++ regField x) (regField y) 0 4).trans
      ((slice_low op (regField x) 0 4 (by decide)).trans (slice_all _))))

@[simp] theorem fieldY_formXY (op : BitVec 4) (x y : RegIx) (n : Nibble) : fieldY (formXY op x y n) = y :=
  congrArg BitVec.toFin ((slice_high (op ++ regField x ++ regField y) n 0 4).trans
    ((slice_low (op ++ regField x) (regField y) 0 4 (by decide)).trans (slice_all _)))

@[simp] theorem fieldN_formXY (op : BitVec 4) (x y : RegIx) (n : Nibble) : fieldN (formXY op x y n) = n :=
  (slice_low (op ++ regField x ++ regField y) n 0 4 (by decide)).trans (slice_all n)

/-! ## A word is its fields -/

theorem word_eq_formNNN (w : Word) : w = formNNN (w.extractLsb' 12 4) (fieldNNN w) := by
  apply BitVec.eq_of_getLsbD_eq
  intro j hj
  show w.getLsbD j = (w.extractLsb' 12 4 ++ w.extractLsb' 0 12).getLsbD j
  rw [BitVec.getLsbD_append]
  by_cases h : j < 12
  · simp [h]
  · simp [h, show 12 + (j - 12) = j by omega]; omega

theorem word_eq_formXNN (w : Word) : w = formXNN (w.extractLsb' 12 4) (fieldX w) (fieldNN w) := by
  apply BitVec.eq_of_getLsbD_eq
  intro j hj
  show w.getLsbD j = (w.extractLsb' 12 4 ++ w.extractLsb' 8 4 ++ w.extractLsb' 0 8).getLsbD j
  rw [BitVec.getLsbD_append, BitVec.getLsbD_append]
  by_cases h : j < 8
  · simp [h]
  · by_cases h' : j - 8 < 4
    · simp [h, h', show 8 + (j - 8) = j by omega]
    · simp [h, h', show 12 + (j - 8 - 4) = j by omega]; omega

theorem word_eq_formXY (w : Word) : w = formXY (w.extractLsb' 12 4) (fieldX w) (fieldY w) (fieldN w) := by
  apply BitVec.eq_of_getLsbD_eq
  intro j hj
  show w.getLsbD j =
    (w.extractLsb' 12 4 ++ w.extractLsb' 8 4 ++ w.extractLsb' 4 4 ++ w.extractLsb' 0 4).getLsbD j
  rw [BitVec.getLsbD_append, BitVec.getLsbD_append, BitVec.getLsbD_append]
  by_cases h : j < 4
  · simp [h]
  · by_cases h' : j - 4 < 4
    · simp [h, h', show 4 + (j - 4) = j by omega]
    · by_cases h'' : j - 4 - 4 < 4
      · simp [h, h', h'', show 8 + (j - 4 - 4) = j by omega]
      · simp [h, h', h'', show 12 + (j - 4 - 4 - 4) = j by omega]; omega

/-! ## Bytes (R57, R58) -/

theorem wordOfBytes_bytesOfWord (w : Word) : wordOfBytes (w.extractLsb' 8 8) (w.extractLsb' 0 8) = w := by
  apply BitVec.eq_of_getLsbD_eq
  intro j hj
  show (w.extractLsb' 8 8 ++ w.extractLsb' 0 8).getLsbD j = w.getLsbD j
  rw [BitVec.getLsbD_append]
  by_cases h : j < 8
  · simp [h]
  · simp [h, show 8 + (j - 8) = j by omega]; omega

theorem wordOfBytes_toNat (hi lo : Byte) : (wordOfBytes hi lo).toNat = 256 * hi.toNat + lo.toNat := by
  show (hi ++ lo).toNat = _
  rw [BitVec.toNat_append, Nat.shiftLeft_eq, ← Nat.shiftLeft_eq, ← Nat.shiftLeft_add_eq_or_of_lt lo.isLt,
    Nat.shiftLeft_eq]
  omega

theorem decodeBytes_encodeBytes (i : Instr) (rest : List Byte) (h : decodeWord (encode i) = .ok i) :
    decodeBytes (encodeBytes i ++ rest) = .ok (i, rest) := by
  simp [encodeBytes, bytesOfWord, decodeBytes, wordOfBytes_bytesOfWord, h]

end Sys2Proof
end

