-- ==== Sys2Proof/Laws/Memory.lean ====
section
/-!
SUPPORT. The laws of memory (rules R55, R56, R60, R61): what a read gives after a write, of one byte and of a run,
and that every memory operation keeps the canonical form.
-/

namespace Sys2Proof.Machine

/-! ## One byte -/

theorem Memory.read_unlist (m : Memory) (a b : Nat) :
    (m.unlist a).read b = if b = a then Memory.resetByte b else m.read b := by
  induction m with
  | nil => simp [Memory.unlist, Memory.read]
  | cons c m ih =>
    obtain ⟨d, u⟩ := c
    simp only [Memory.unlist] at ih
    by_cases h : d = a
    · subst h
      by_cases hb : b = d <;> simp_all [Memory.unlist, Memory.read]
    · by_cases hd : b = d
      · subst hd; simp [Memory.unlist, Memory.read, h]
      · simp [Memory.unlist, Memory.read, h, hd, ih]

theorem Memory.read_list (m : Memory) (a : Nat) (v : Byte) (hm : ∀ c ∈ m, c.1 ≠ a) (b : Nat) :
    (m.list a v).read b = if b = a then v else m.read b := by
  induction m with
  | nil => simp [Memory.list, Memory.read]
  | cons c m ih =>
    obtain ⟨d, u⟩ := c
    have hd : d ≠ a := hm (d, u) (by simp)
    have ih' := ih (fun c hc => hm c (by simp [hc]))
    by_cases h : a < d
    · simp [Memory.list, h, Memory.read]
    · by_cases hb : b = d
      · subst hb; simp [Memory.list, h, Memory.read, hd]
      · simp [Memory.list, h, Memory.read, hb, ih']

theorem Memory.unlist_ne (m : Memory) (a : Nat) : ∀ c ∈ m.unlist a, c.1 ≠ a := by
  intro c hc
  simpa using (List.mem_filter.1 hc).2

/-- A read gives the latest byte written to its address (R61). -/
theorem Memory.read_write (m : Memory) (a : Nat) (v : Byte) (b : Nat) :
    (m.write a v).read b = if b = a then v else m.read b := by
  unfold Memory.write
  split
  · rename_i h
    rw [Memory.read_unlist]
    split <;> simp_all
  · rw [Memory.read_list _ _ _ (Memory.unlist_ne m a), Memory.read_unlist]
    split <;> simp_all

@[simp] theorem Memory.read_write_self (m : Memory) (a : Nat) (v : Byte) : (m.write a v).read a = v := by
  simp [Memory.read_write]

theorem Memory.read_write_ne (m : Memory) (v : Byte) (h : b ≠ a) : (m.write a v).read b = m.read b := by
  simp [Memory.read_write, h]

/-! ## A run of bytes -/

/-- What a read gives after a run is written: the run's byte inside it, the byte before outside it. -/
theorem Memory.read_writeRun (bs : List Byte) (m : Memory) (a b : Nat) :
    (m.writeRun a bs).read b = if a ≤ b ∧ b < a + bs.length then bs.getD (b - a) 0 else m.read b := by
  induction bs generalizing m a with
  | nil => simp [Memory.writeRun]
  | cons v bs ih =>
    rw [Memory.writeRun, ih, Memory.read_write]
    by_cases h : b = a
    · subst h; simp
    · by_cases h' : a + 1 ≤ b ∧ b < a + 1 + bs.length
      · rw [if_pos h', if_pos (by simp; omega)]
        obtain ⟨k, rfl⟩ : ∃ k, b = a + 1 + k := ⟨b - (a + 1), by omega⟩
        rw [show a + 1 + k - (a + 1) = k by omega, show a + 1 + k - a = k + 1 by omega]
        simp
      · rw [if_neg h', if_neg h, if_neg (by simp; omega)]

theorem Memory.read_writeRun_outside (bs : List Byte) (m : Memory) (h : b < a ∨ a + bs.length ≤ b) :
    (m.writeRun a bs).read b = m.read b := by
  rw [Memory.read_writeRun, if_neg (by omega)]

theorem Memory.length_readRun (m : Memory) (a n : Nat) : (m.readRun a n).length = n := by
  induction n generalizing a with
  | zero => rfl
  | succ n ih => simp [Memory.readRun, ih]

theorem Memory.getElem?_readRun (m : Memory) (a n k : Nat) (h : k < n) :
    (m.readRun a n)[k]? = some (m.read (a + k)) := by
  induction n generalizing a k with
  | zero => omega
  | succ n ih =>
    cases k with
    | zero => simp [Memory.readRun]
    | succ k =>
      simp only [Memory.readRun, List.getElem?_cons_succ]
      rw [ih _ _ (by omega)]
      congr 2; omega

theorem Memory.getD_readRun (m : Memory) (a n k : Nat) (d : Byte) (h : k < n) :
    (m.readRun a n).getD k d = m.read (a + k) := by
  rw [List.getD_eq_getElem?_getD, Memory.getElem?_readRun _ _ _ _ h]
  rfl

/-! ## The canonical form -/

theorem Memory.wf_nil : Memory.wf [] := by simp [Memory.wf]

theorem Memory.wf_unlist {m : Memory} (h : m.wf) (a : Nat) : (m.unlist a).wf :=
  ⟨h.1.filter _, fun c hc => h.2 c (List.mem_filter.1 hc).1⟩

theorem Memory.mem_list (m : Memory) (a : Nat) (v : Byte) (c : Host.Cell) :
    c ∈ m.list a v ↔ c = (a, v) ∨ c ∈ m := by
  induction m with
  | nil => simp [Memory.list]
  | cons d m ih =>
    obtain ⟨d, u⟩ := d
    unfold Memory.list
    split
    · simp
    · simp [ih]; tauto

theorem Memory.rising_list (m : Memory) (a : Nat) (v : Byte) (h : m.Pairwise (fun c d => c.1 < d.1))
    (hm : ∀ c ∈ m, c.1 ≠ a) : (m.list a v).Pairwise (fun c d => c.1 < d.1) := by
  induction m with
  | nil => simp [Memory.list]
  | cons d m ih =>
    obtain ⟨d, u⟩ := d
    have hd : d ≠ a := hm (d, u) (by simp)
    rw [List.pairwise_cons] at h
    unfold Memory.list
    split
    · rename_i had
      refine List.pairwise_cons.2 ⟨fun c hc => ?_, List.pairwise_cons.2 h⟩
      rcases List.mem_cons.1 hc with rfl | hc
      · exact had
      · exact had.trans (h.1 c hc)
    · rename_i had
      refine List.pairwise_cons.2 ⟨fun c hc => ?_, ih h.2 (fun c hc => hm c (by simp [hc]))⟩
      rcases (Memory.mem_list m a v c).1 hc with rfl | hc
      · show d < a; omega
      · exact h.1 c hc

/-- A write of a byte keeps the canonical form. -/
theorem Memory.wf_write {m : Memory} (h : m.wf) (ha : a < Config.memSize) (v : Byte) : (m.write a v).wf := by
  have hu := Memory.wf_unlist h a
  unfold Memory.write
  split
  · exact hu
  · rename_i hv
    refine ⟨Memory.rising_list _ _ _ hu.1 (Memory.unlist_ne m a), fun c hc => ?_⟩
    rcases (Memory.mem_list _ a v c).1 hc with rfl | hc
    · exact ⟨ha, hv⟩
    · exact hu.2 c hc

/-- A write of a run of bytes keeps the canonical form. -/
theorem Memory.wf_writeRun (bs : List Byte) {m : Memory} (h : m.wf) (ha : a + bs.length ≤ Config.memSize) :
    (m.writeRun a bs).wf := by
  induction bs generalizing m a with
  | nil => exact h
  | cons v bs ih =>
    simp only [List.length_cons] at ha
    exact ih (Memory.wf_write h (by omega) v) (by omega)

/-- In the canonical form an entry is what a read gives. -/
theorem Memory.read_of_mem {m : Memory} (h : m.wf) {c : Host.Cell} (hc : c ∈ m) : m.read c.1 = c.2 := by
  obtain ⟨hr, -⟩ := h
  induction m with
  | nil => simp at hc
  | cons d m ih =>
    obtain ⟨d, u⟩ := d
    rw [List.pairwise_cons] at hr
    rcases List.mem_cons.1 hc with rfl | hc
    · simp [Memory.read]
    · have : d < c.1 := hr.1 c hc
      rw [Memory.read, if_neg (by omega), ih hc hr.2]

/-- An address with no entry reads as its reset value. -/
theorem Memory.read_of_notMem {m : Memory} {a : Nat} (h : ∀ c ∈ m, c.1 ≠ a) : m.read a = Memory.resetByte a := by
  induction m with
  | nil => rfl
  | cons d m ih =>
    obtain ⟨d, u⟩ := d
    have : d ≠ a := h (d, u) (by simp)
    rw [Memory.read, if_neg (by omega), ih (fun c hc => h c (by simp [hc]))]

theorem Memory.mem_iff {m : Memory} (h : m.wf) (a : Nat) (v : Byte) :
    (a, v) ∈ m ↔ m.read a = v ∧ v ≠ Memory.resetByte a := by
  constructor
  · intro hc; exact ⟨Memory.read_of_mem h hc, (h.2 _ hc).2⟩
  · rintro ⟨rfl, hne⟩
    by_contra hn
    refine hne (Memory.read_of_notMem fun c hc hca => hn ?_)
    obtain ⟨b, u⟩ := c
    simp only at hca
    subst hca
    rwa [show m.read b = u from Memory.read_of_mem h hc]

/-- Memories in the canonical form that read alike are equal. -/
theorem Memory.eq_of_read_eq {m k : Memory} (hm : m.wf) (hk : k.wf) (h : ∀ a, m.read a = k.read a) : m = k := by
  have hp : m.Perm k := by
    rw [List.perm_ext_iff_of_nodup]
    · rintro ⟨a, v⟩; rw [Memory.mem_iff hm, Memory.mem_iff hk, h]
    · exact hm.1.imp (fun {c d} hcd => by rintro rfl; omega)
    · exact hk.1.imp (fun {c d} hcd => by rintro rfl; omega)
  exact hp.eq_of_pairwise (fun c d _ _ h1 h2 => by omega) hm.1 hk.1

theorem State.reset_mem_wf : State.reset.mem.wf := Memory.wf_nil

end Sys2Proof.Machine
end

