-- ==== Sys2Proof/Laws/State.lean ====
section
/-!
SUPPORT. The state's update operations, one lemma per field (and per accessor) per update, each true by rfl, and
what a read of a register gives after each write of one. No later proof unfolds a record update.
-/

namespace Sys2Proof.Machine

/-! ## setReg -/

@[simp] theorem State.setReg_v (s : State) (x : RegIx) (b : Byte) : (s.setReg x b).v = s.v.set x.val b := rfl
@[simp] theorem State.setReg_i (s : State) (x : RegIx) (b : Byte) : (s.setReg x b).i = s.i := rfl
@[simp] theorem State.setReg_pc (s : State) (x : RegIx) (b : Byte) : (s.setReg x b).pc = s.pc := rfl
@[simp] theorem State.setReg_stack (s : State) (x : RegIx) (b : Byte) : (s.setReg x b).stack = s.stack := rfl
@[simp] theorem State.setReg_sp (s : State) (x : RegIx) (b : Byte) : (s.setReg x b).sp = s.sp := rfl
@[simp] theorem State.setReg_dt (s : State) (x : RegIx) (b : Byte) : (s.setReg x b).dt = s.dt := rfl
@[simp] theorem State.setReg_st (s : State) (x : RegIx) (b : Byte) : (s.setReg x b).st = s.st := rfl
@[simp] theorem State.setReg_keys (s : State) (x : RegIx) (b : Byte) : (s.setReg x b).keys = s.keys := rfl
@[simp] theorem State.setReg_keysPrev (s : State) (x : RegIx) (b : Byte) : (s.setReg x b).keysPrev = s.keysPrev := rfl
@[simp] theorem State.setReg_fb (s : State) (x : RegIx) (b : Byte) : (s.setReg x b).fb = s.fb := rfl
@[simp] theorem State.setReg_mem (s : State) (x : RegIx) (b : Byte) : (s.setReg x b).mem = s.mem := rfl
@[simp] theorem State.setReg_status (s : State) (x : RegIx) (b : Byte) : (s.setReg x b).status = s.status := rfl
@[simp] theorem State.setReg_rngDrawn (s : State) (x : RegIx) (b : Byte) : (s.setReg x b).rngDrawn = s.rngDrawn := rfl
@[simp] theorem State.setReg_stackEntry (s : State) (x : RegIx) (b : Byte) (k : Fin 16) : (s.setReg x b).stackEntry k = s.stackEntry k := rfl
@[simp] theorem State.setReg_key (s : State) (x : RegIx) (b : Byte) (k : KeyIx) : (s.setReg x b).key k = s.key k := rfl
@[simp] theorem State.setReg_keyPrev (s : State) (x : RegIx) (b : Byte) (k : KeyIx) : (s.setReg x b).keyPrev k = s.keyPrev k := rfl
@[simp] theorem State.setReg_byteAt (s : State) (x : RegIx) (b : Byte) (n : Nat) : (s.setReg x b).byteAt n = s.byteAt n := rfl
@[simp] theorem State.setReg_isRunning (s : State) (x : RegIx) (b : Byte) : (s.setReg x b).isRunning = s.isRunning := rfl

/-! ## setRegsFrom0 -/

@[simp] theorem State.setRegsFrom0_v (s : State) (bs : List Byte) : (s.setRegsFrom0 bs).v = loadRegisters 0 bs s.v := rfl
@[simp] theorem State.setRegsFrom0_i (s : State) (bs : List Byte) : (s.setRegsFrom0 bs).i = s.i := rfl
@[simp] theorem State.setRegsFrom0_pc (s : State) (bs : List Byte) : (s.setRegsFrom0 bs).pc = s.pc := rfl
@[simp] theorem State.setRegsFrom0_stack (s : State) (bs : List Byte) : (s.setRegsFrom0 bs).stack = s.stack := rfl
@[simp] theorem State.setRegsFrom0_sp (s : State) (bs : List Byte) : (s.setRegsFrom0 bs).sp = s.sp := rfl
@[simp] theorem State.setRegsFrom0_dt (s : State) (bs : List Byte) : (s.setRegsFrom0 bs).dt = s.dt := rfl
@[simp] theorem State.setRegsFrom0_st (s : State) (bs : List Byte) : (s.setRegsFrom0 bs).st = s.st := rfl
@[simp] theorem State.setRegsFrom0_keys (s : State) (bs : List Byte) : (s.setRegsFrom0 bs).keys = s.keys := rfl
@[simp] theorem State.setRegsFrom0_keysPrev (s : State) (bs : List Byte) : (s.setRegsFrom0 bs).keysPrev = s.keysPrev := rfl
@[simp] theorem State.setRegsFrom0_fb (s : State) (bs : List Byte) : (s.setRegsFrom0 bs).fb = s.fb := rfl
@[simp] theorem State.setRegsFrom0_mem (s : State) (bs : List Byte) : (s.setRegsFrom0 bs).mem = s.mem := rfl
@[simp] theorem State.setRegsFrom0_status (s : State) (bs : List Byte) : (s.setRegsFrom0 bs).status = s.status := rfl
@[simp] theorem State.setRegsFrom0_rngDrawn (s : State) (bs : List Byte) : (s.setRegsFrom0 bs).rngDrawn = s.rngDrawn := rfl
@[simp] theorem State.setRegsFrom0_stackEntry (s : State) (bs : List Byte) (k : Fin 16) : (s.setRegsFrom0 bs).stackEntry k = s.stackEntry k := rfl
@[simp] theorem State.setRegsFrom0_key (s : State) (bs : List Byte) (k : KeyIx) : (s.setRegsFrom0 bs).key k = s.key k := rfl
@[simp] theorem State.setRegsFrom0_keyPrev (s : State) (bs : List Byte) (k : KeyIx) : (s.setRegsFrom0 bs).keyPrev k = s.keyPrev k := rfl
@[simp] theorem State.setRegsFrom0_byteAt (s : State) (bs : List Byte) (n : Nat) : (s.setRegsFrom0 bs).byteAt n = s.byteAt n := rfl
@[simp] theorem State.setRegsFrom0_isRunning (s : State) (bs : List Byte) : (s.setRegsFrom0 bs).isRunning = s.isRunning := rfl

/-! ## setI -/

@[simp] theorem State.setI_v (s : State) (a : Word) : (s.setI a).v = s.v := rfl
@[simp] theorem State.setI_i (s : State) (a : Word) : (s.setI a).i = a := rfl
@[simp] theorem State.setI_pc (s : State) (a : Word) : (s.setI a).pc = s.pc := rfl
@[simp] theorem State.setI_stack (s : State) (a : Word) : (s.setI a).stack = s.stack := rfl
@[simp] theorem State.setI_sp (s : State) (a : Word) : (s.setI a).sp = s.sp := rfl
@[simp] theorem State.setI_dt (s : State) (a : Word) : (s.setI a).dt = s.dt := rfl
@[simp] theorem State.setI_st (s : State) (a : Word) : (s.setI a).st = s.st := rfl
@[simp] theorem State.setI_keys (s : State) (a : Word) : (s.setI a).keys = s.keys := rfl
@[simp] theorem State.setI_keysPrev (s : State) (a : Word) : (s.setI a).keysPrev = s.keysPrev := rfl
@[simp] theorem State.setI_fb (s : State) (a : Word) : (s.setI a).fb = s.fb := rfl
@[simp] theorem State.setI_mem (s : State) (a : Word) : (s.setI a).mem = s.mem := rfl
@[simp] theorem State.setI_status (s : State) (a : Word) : (s.setI a).status = s.status := rfl
@[simp] theorem State.setI_rngDrawn (s : State) (a : Word) : (s.setI a).rngDrawn = s.rngDrawn := rfl
@[simp] theorem State.setI_reg (s : State) (a : Word) (r : RegIx) : (s.setI a).reg r = s.reg r := rfl
@[simp] theorem State.setI_stackEntry (s : State) (a : Word) (k : Fin 16) : (s.setI a).stackEntry k = s.stackEntry k := rfl
@[simp] theorem State.setI_key (s : State) (a : Word) (k : KeyIx) : (s.setI a).key k = s.key k := rfl
@[simp] theorem State.setI_keyPrev (s : State) (a : Word) (k : KeyIx) : (s.setI a).keyPrev k = s.keyPrev k := rfl
@[simp] theorem State.setI_byteAt (s : State) (a : Word) (n : Nat) : (s.setI a).byteAt n = s.byteAt n := rfl
@[simp] theorem State.setI_isRunning (s : State) (a : Word) : (s.setI a).isRunning = s.isRunning := rfl

/-! ## setPc -/

@[simp] theorem State.setPc_v (s : State) (a : Word) : (s.setPc a).v = s.v := rfl
@[simp] theorem State.setPc_i (s : State) (a : Word) : (s.setPc a).i = s.i := rfl
@[simp] theorem State.setPc_pc (s : State) (a : Word) : (s.setPc a).pc = a := rfl
@[simp] theorem State.setPc_stack (s : State) (a : Word) : (s.setPc a).stack = s.stack := rfl
@[simp] theorem State.setPc_sp (s : State) (a : Word) : (s.setPc a).sp = s.sp := rfl
@[simp] theorem State.setPc_dt (s : State) (a : Word) : (s.setPc a).dt = s.dt := rfl
@[simp] theorem State.setPc_st (s : State) (a : Word) : (s.setPc a).st = s.st := rfl
@[simp] theorem State.setPc_keys (s : State) (a : Word) : (s.setPc a).keys = s.keys := rfl
@[simp] theorem State.setPc_keysPrev (s : State) (a : Word) : (s.setPc a).keysPrev = s.keysPrev := rfl
@[simp] theorem State.setPc_fb (s : State) (a : Word) : (s.setPc a).fb = s.fb := rfl
@[simp] theorem State.setPc_mem (s : State) (a : Word) : (s.setPc a).mem = s.mem := rfl
@[simp] theorem State.setPc_status (s : State) (a : Word) : (s.setPc a).status = s.status := rfl
@[simp] theorem State.setPc_rngDrawn (s : State) (a : Word) : (s.setPc a).rngDrawn = s.rngDrawn := rfl
@[simp] theorem State.setPc_reg (s : State) (a : Word) (r : RegIx) : (s.setPc a).reg r = s.reg r := rfl
@[simp] theorem State.setPc_stackEntry (s : State) (a : Word) (k : Fin 16) : (s.setPc a).stackEntry k = s.stackEntry k := rfl
@[simp] theorem State.setPc_key (s : State) (a : Word) (k : KeyIx) : (s.setPc a).key k = s.key k := rfl
@[simp] theorem State.setPc_keyPrev (s : State) (a : Word) (k : KeyIx) : (s.setPc a).keyPrev k = s.keyPrev k := rfl
@[simp] theorem State.setPc_byteAt (s : State) (a : Word) (n : Nat) : (s.setPc a).byteAt n = s.byteAt n := rfl
@[simp] theorem State.setPc_isRunning (s : State) (a : Word) : (s.setPc a).isRunning = s.isRunning := rfl

/-! ## setDt -/

@[simp] theorem State.setDt_v (s : State) (b : Byte) : (s.setDt b).v = s.v := rfl
@[simp] theorem State.setDt_i (s : State) (b : Byte) : (s.setDt b).i = s.i := rfl
@[simp] theorem State.setDt_pc (s : State) (b : Byte) : (s.setDt b).pc = s.pc := rfl
@[simp] theorem State.setDt_stack (s : State) (b : Byte) : (s.setDt b).stack = s.stack := rfl
@[simp] theorem State.setDt_sp (s : State) (b : Byte) : (s.setDt b).sp = s.sp := rfl
@[simp] theorem State.setDt_dt (s : State) (b : Byte) : (s.setDt b).dt = b := rfl
@[simp] theorem State.setDt_st (s : State) (b : Byte) : (s.setDt b).st = s.st := rfl
@[simp] theorem State.setDt_keys (s : State) (b : Byte) : (s.setDt b).keys = s.keys := rfl
@[simp] theorem State.setDt_keysPrev (s : State) (b : Byte) : (s.setDt b).keysPrev = s.keysPrev := rfl
@[simp] theorem State.setDt_fb (s : State) (b : Byte) : (s.setDt b).fb = s.fb := rfl
@[simp] theorem State.setDt_mem (s : State) (b : Byte) : (s.setDt b).mem = s.mem := rfl
@[simp] theorem State.setDt_status (s : State) (b : Byte) : (s.setDt b).status = s.status := rfl
@[simp] theorem State.setDt_rngDrawn (s : State) (b : Byte) : (s.setDt b).rngDrawn = s.rngDrawn := rfl
@[simp] theorem State.setDt_reg (s : State) (b : Byte) (r : RegIx) : (s.setDt b).reg r = s.reg r := rfl
@[simp] theorem State.setDt_stackEntry (s : State) (b : Byte) (k : Fin 16) : (s.setDt b).stackEntry k = s.stackEntry k := rfl
@[simp] theorem State.setDt_key (s : State) (b : Byte) (k : KeyIx) : (s.setDt b).key k = s.key k := rfl
@[simp] theorem State.setDt_keyPrev (s : State) (b : Byte) (k : KeyIx) : (s.setDt b).keyPrev k = s.keyPrev k := rfl
@[simp] theorem State.setDt_byteAt (s : State) (b : Byte) (n : Nat) : (s.setDt b).byteAt n = s.byteAt n := rfl
@[simp] theorem State.setDt_isRunning (s : State) (b : Byte) : (s.setDt b).isRunning = s.isRunning := rfl

/-! ## setSt -/

@[simp] theorem State.setSt_v (s : State) (b : Byte) : (s.setSt b).v = s.v := rfl
@[simp] theorem State.setSt_i (s : State) (b : Byte) : (s.setSt b).i = s.i := rfl
@[simp] theorem State.setSt_pc (s : State) (b : Byte) : (s.setSt b).pc = s.pc := rfl
@[simp] theorem State.setSt_stack (s : State) (b : Byte) : (s.setSt b).stack = s.stack := rfl
@[simp] theorem State.setSt_sp (s : State) (b : Byte) : (s.setSt b).sp = s.sp := rfl
@[simp] theorem State.setSt_dt (s : State) (b : Byte) : (s.setSt b).dt = s.dt := rfl
@[simp] theorem State.setSt_st (s : State) (b : Byte) : (s.setSt b).st = b := rfl
@[simp] theorem State.setSt_keys (s : State) (b : Byte) : (s.setSt b).keys = s.keys := rfl
@[simp] theorem State.setSt_keysPrev (s : State) (b : Byte) : (s.setSt b).keysPrev = s.keysPrev := rfl
@[simp] theorem State.setSt_fb (s : State) (b : Byte) : (s.setSt b).fb = s.fb := rfl
@[simp] theorem State.setSt_mem (s : State) (b : Byte) : (s.setSt b).mem = s.mem := rfl
@[simp] theorem State.setSt_status (s : State) (b : Byte) : (s.setSt b).status = s.status := rfl
@[simp] theorem State.setSt_rngDrawn (s : State) (b : Byte) : (s.setSt b).rngDrawn = s.rngDrawn := rfl
@[simp] theorem State.setSt_reg (s : State) (b : Byte) (r : RegIx) : (s.setSt b).reg r = s.reg r := rfl
@[simp] theorem State.setSt_stackEntry (s : State) (b : Byte) (k : Fin 16) : (s.setSt b).stackEntry k = s.stackEntry k := rfl
@[simp] theorem State.setSt_key (s : State) (b : Byte) (k : KeyIx) : (s.setSt b).key k = s.key k := rfl
@[simp] theorem State.setSt_keyPrev (s : State) (b : Byte) (k : KeyIx) : (s.setSt b).keyPrev k = s.keyPrev k := rfl
@[simp] theorem State.setSt_byteAt (s : State) (b : Byte) (n : Nat) : (s.setSt b).byteAt n = s.byteAt n := rfl
@[simp] theorem State.setSt_isRunning (s : State) (b : Byte) : (s.setSt b).isRunning = s.isRunning := rfl

/-! ## setFb -/

@[simp] theorem State.setFb_v (s : State) (f : Framebuffer) : (s.setFb f).v = s.v := rfl
@[simp] theorem State.setFb_i (s : State) (f : Framebuffer) : (s.setFb f).i = s.i := rfl
@[simp] theorem State.setFb_pc (s : State) (f : Framebuffer) : (s.setFb f).pc = s.pc := rfl
@[simp] theorem State.setFb_stack (s : State) (f : Framebuffer) : (s.setFb f).stack = s.stack := rfl
@[simp] theorem State.setFb_sp (s : State) (f : Framebuffer) : (s.setFb f).sp = s.sp := rfl
@[simp] theorem State.setFb_dt (s : State) (f : Framebuffer) : (s.setFb f).dt = s.dt := rfl
@[simp] theorem State.setFb_st (s : State) (f : Framebuffer) : (s.setFb f).st = s.st := rfl
@[simp] theorem State.setFb_keys (s : State) (f : Framebuffer) : (s.setFb f).keys = s.keys := rfl
@[simp] theorem State.setFb_keysPrev (s : State) (f : Framebuffer) : (s.setFb f).keysPrev = s.keysPrev := rfl
@[simp] theorem State.setFb_fb (s : State) (f : Framebuffer) : (s.setFb f).fb = f := rfl
@[simp] theorem State.setFb_mem (s : State) (f : Framebuffer) : (s.setFb f).mem = s.mem := rfl
@[simp] theorem State.setFb_status (s : State) (f : Framebuffer) : (s.setFb f).status = s.status := rfl
@[simp] theorem State.setFb_rngDrawn (s : State) (f : Framebuffer) : (s.setFb f).rngDrawn = s.rngDrawn := rfl
@[simp] theorem State.setFb_reg (s : State) (f : Framebuffer) (r : RegIx) : (s.setFb f).reg r = s.reg r := rfl
@[simp] theorem State.setFb_stackEntry (s : State) (f : Framebuffer) (k : Fin 16) : (s.setFb f).stackEntry k = s.stackEntry k := rfl
@[simp] theorem State.setFb_key (s : State) (f : Framebuffer) (k : KeyIx) : (s.setFb f).key k = s.key k := rfl
@[simp] theorem State.setFb_keyPrev (s : State) (f : Framebuffer) (k : KeyIx) : (s.setFb f).keyPrev k = s.keyPrev k := rfl
@[simp] theorem State.setFb_byteAt (s : State) (f : Framebuffer) (n : Nat) : (s.setFb f).byteAt n = s.byteAt n := rfl
@[simp] theorem State.setFb_isRunning (s : State) (f : Framebuffer) : (s.setFb f).isRunning = s.isRunning := rfl

/-! ## setMem -/

@[simp] theorem State.setMem_v (s : State) (m : Memory) : (s.setMem m).v = s.v := rfl
@[simp] theorem State.setMem_i (s : State) (m : Memory) : (s.setMem m).i = s.i := rfl
@[simp] theorem State.setMem_pc (s : State) (m : Memory) : (s.setMem m).pc = s.pc := rfl
@[simp] theorem State.setMem_stack (s : State) (m : Memory) : (s.setMem m).stack = s.stack := rfl
@[simp] theorem State.setMem_sp (s : State) (m : Memory) : (s.setMem m).sp = s.sp := rfl
@[simp] theorem State.setMem_dt (s : State) (m : Memory) : (s.setMem m).dt = s.dt := rfl
@[simp] theorem State.setMem_st (s : State) (m : Memory) : (s.setMem m).st = s.st := rfl
@[simp] theorem State.setMem_keys (s : State) (m : Memory) : (s.setMem m).keys = s.keys := rfl
@[simp] theorem State.setMem_keysPrev (s : State) (m : Memory) : (s.setMem m).keysPrev = s.keysPrev := rfl
@[simp] theorem State.setMem_fb (s : State) (m : Memory) : (s.setMem m).fb = s.fb := rfl
@[simp] theorem State.setMem_mem (s : State) (m : Memory) : (s.setMem m).mem = m := rfl
@[simp] theorem State.setMem_status (s : State) (m : Memory) : (s.setMem m).status = s.status := rfl
@[simp] theorem State.setMem_rngDrawn (s : State) (m : Memory) : (s.setMem m).rngDrawn = s.rngDrawn := rfl
@[simp] theorem State.setMem_reg (s : State) (m : Memory) (r : RegIx) : (s.setMem m).reg r = s.reg r := rfl
@[simp] theorem State.setMem_stackEntry (s : State) (m : Memory) (k : Fin 16) : (s.setMem m).stackEntry k = s.stackEntry k := rfl
@[simp] theorem State.setMem_key (s : State) (m : Memory) (k : KeyIx) : (s.setMem m).key k = s.key k := rfl
@[simp] theorem State.setMem_keyPrev (s : State) (m : Memory) (k : KeyIx) : (s.setMem m).keyPrev k = s.keyPrev k := rfl
@[simp] theorem State.setMem_isRunning (s : State) (m : Memory) : (s.setMem m).isRunning = s.isRunning := rfl

/-! ## setKeys -/

@[simp] theorem State.setKeys_v (s : State) (ks : Vector Bool 16) : (s.setKeys ks).v = s.v := rfl
@[simp] theorem State.setKeys_i (s : State) (ks : Vector Bool 16) : (s.setKeys ks).i = s.i := rfl
@[simp] theorem State.setKeys_pc (s : State) (ks : Vector Bool 16) : (s.setKeys ks).pc = s.pc := rfl
@[simp] theorem State.setKeys_stack (s : State) (ks : Vector Bool 16) : (s.setKeys ks).stack = s.stack := rfl
@[simp] theorem State.setKeys_sp (s : State) (ks : Vector Bool 16) : (s.setKeys ks).sp = s.sp := rfl
@[simp] theorem State.setKeys_dt (s : State) (ks : Vector Bool 16) : (s.setKeys ks).dt = s.dt := rfl
@[simp] theorem State.setKeys_st (s : State) (ks : Vector Bool 16) : (s.setKeys ks).st = s.st := rfl
@[simp] theorem State.setKeys_keys (s : State) (ks : Vector Bool 16) : (s.setKeys ks).keys = ks := rfl
@[simp] theorem State.setKeys_keysPrev (s : State) (ks : Vector Bool 16) : (s.setKeys ks).keysPrev = s.keysPrev := rfl
@[simp] theorem State.setKeys_fb (s : State) (ks : Vector Bool 16) : (s.setKeys ks).fb = s.fb := rfl
@[simp] theorem State.setKeys_mem (s : State) (ks : Vector Bool 16) : (s.setKeys ks).mem = s.mem := rfl
@[simp] theorem State.setKeys_status (s : State) (ks : Vector Bool 16) : (s.setKeys ks).status = s.status := rfl
@[simp] theorem State.setKeys_rngDrawn (s : State) (ks : Vector Bool 16) : (s.setKeys ks).rngDrawn = s.rngDrawn := rfl
@[simp] theorem State.setKeys_reg (s : State) (ks : Vector Bool 16) (r : RegIx) : (s.setKeys ks).reg r = s.reg r := rfl
@[simp] theorem State.setKeys_stackEntry (s : State) (ks : Vector Bool 16) (k : Fin 16) : (s.setKeys ks).stackEntry k = s.stackEntry k := rfl
@[simp] theorem State.setKeys_keyPrev (s : State) (ks : Vector Bool 16) (k : KeyIx) : (s.setKeys ks).keyPrev k = s.keyPrev k := rfl
@[simp] theorem State.setKeys_byteAt (s : State) (ks : Vector Bool 16) (n : Nat) : (s.setKeys ks).byteAt n = s.byteAt n := rfl
@[simp] theorem State.setKeys_isRunning (s : State) (ks : Vector Bool 16) : (s.setKeys ks).isRunning = s.isRunning := rfl

/-! ## setKeysPrev -/

@[simp] theorem State.setKeysPrev_v (s : State) (ks : Vector Bool 16) : (s.setKeysPrev ks).v = s.v := rfl
@[simp] theorem State.setKeysPrev_i (s : State) (ks : Vector Bool 16) : (s.setKeysPrev ks).i = s.i := rfl
@[simp] theorem State.setKeysPrev_pc (s : State) (ks : Vector Bool 16) : (s.setKeysPrev ks).pc = s.pc := rfl
@[simp] theorem State.setKeysPrev_stack (s : State) (ks : Vector Bool 16) : (s.setKeysPrev ks).stack = s.stack := rfl
@[simp] theorem State.setKeysPrev_sp (s : State) (ks : Vector Bool 16) : (s.setKeysPrev ks).sp = s.sp := rfl
@[simp] theorem State.setKeysPrev_dt (s : State) (ks : Vector Bool 16) : (s.setKeysPrev ks).dt = s.dt := rfl
@[simp] theorem State.setKeysPrev_st (s : State) (ks : Vector Bool 16) : (s.setKeysPrev ks).st = s.st := rfl
@[simp] theorem State.setKeysPrev_keys (s : State) (ks : Vector Bool 16) : (s.setKeysPrev ks).keys = s.keys := rfl
@[simp] theorem State.setKeysPrev_keysPrev (s : State) (ks : Vector Bool 16) : (s.setKeysPrev ks).keysPrev = ks := rfl
@[simp] theorem State.setKeysPrev_fb (s : State) (ks : Vector Bool 16) : (s.setKeysPrev ks).fb = s.fb := rfl
@[simp] theorem State.setKeysPrev_mem (s : State) (ks : Vector Bool 16) : (s.setKeysPrev ks).mem = s.mem := rfl
@[simp] theorem State.setKeysPrev_status (s : State) (ks : Vector Bool 16) : (s.setKeysPrev ks).status = s.status := rfl
@[simp] theorem State.setKeysPrev_rngDrawn (s : State) (ks : Vector Bool 16) : (s.setKeysPrev ks).rngDrawn = s.rngDrawn := rfl
@[simp] theorem State.setKeysPrev_reg (s : State) (ks : Vector Bool 16) (r : RegIx) : (s.setKeysPrev ks).reg r = s.reg r := rfl
@[simp] theorem State.setKeysPrev_stackEntry (s : State) (ks : Vector Bool 16) (k : Fin 16) : (s.setKeysPrev ks).stackEntry k = s.stackEntry k := rfl
@[simp] theorem State.setKeysPrev_key (s : State) (ks : Vector Bool 16) (k : KeyIx) : (s.setKeysPrev ks).key k = s.key k := rfl
@[simp] theorem State.setKeysPrev_byteAt (s : State) (ks : Vector Bool 16) (n : Nat) : (s.setKeysPrev ks).byteAt n = s.byteAt n := rfl
@[simp] theorem State.setKeysPrev_isRunning (s : State) (ks : Vector Bool 16) : (s.setKeysPrev ks).isRunning = s.isRunning := rfl

/-! ## setStatus -/

@[simp] theorem State.setStatus_v (s : State) (q : Status) : (s.setStatus q).v = s.v := rfl
@[simp] theorem State.setStatus_i (s : State) (q : Status) : (s.setStatus q).i = s.i := rfl
@[simp] theorem State.setStatus_pc (s : State) (q : Status) : (s.setStatus q).pc = s.pc := rfl
@[simp] theorem State.setStatus_stack (s : State) (q : Status) : (s.setStatus q).stack = s.stack := rfl
@[simp] theorem State.setStatus_sp (s : State) (q : Status) : (s.setStatus q).sp = s.sp := rfl
@[simp] theorem State.setStatus_dt (s : State) (q : Status) : (s.setStatus q).dt = s.dt := rfl
@[simp] theorem State.setStatus_st (s : State) (q : Status) : (s.setStatus q).st = s.st := rfl
@[simp] theorem State.setStatus_keys (s : State) (q : Status) : (s.setStatus q).keys = s.keys := rfl
@[simp] theorem State.setStatus_keysPrev (s : State) (q : Status) : (s.setStatus q).keysPrev = s.keysPrev := rfl
@[simp] theorem State.setStatus_fb (s : State) (q : Status) : (s.setStatus q).fb = s.fb := rfl
@[simp] theorem State.setStatus_mem (s : State) (q : Status) : (s.setStatus q).mem = s.mem := rfl
@[simp] theorem State.setStatus_status (s : State) (q : Status) : (s.setStatus q).status = q := rfl
@[simp] theorem State.setStatus_rngDrawn (s : State) (q : Status) : (s.setStatus q).rngDrawn = s.rngDrawn := rfl
@[simp] theorem State.setStatus_reg (s : State) (q : Status) (r : RegIx) : (s.setStatus q).reg r = s.reg r := rfl
@[simp] theorem State.setStatus_stackEntry (s : State) (q : Status) (k : Fin 16) : (s.setStatus q).stackEntry k = s.stackEntry k := rfl
@[simp] theorem State.setStatus_key (s : State) (q : Status) (k : KeyIx) : (s.setStatus q).key k = s.key k := rfl
@[simp] theorem State.setStatus_keyPrev (s : State) (q : Status) (k : KeyIx) : (s.setStatus q).keyPrev k = s.keyPrev k := rfl
@[simp] theorem State.setStatus_byteAt (s : State) (q : Status) (n : Nat) : (s.setStatus q).byteAt n = s.byteAt n := rfl

/-! ## drawRandom -/

@[simp] theorem State.drawRandom_v (s : State) : (s.drawRandom).v = s.v := rfl
@[simp] theorem State.drawRandom_i (s : State) : (s.drawRandom).i = s.i := rfl
@[simp] theorem State.drawRandom_pc (s : State) : (s.drawRandom).pc = s.pc := rfl
@[simp] theorem State.drawRandom_stack (s : State) : (s.drawRandom).stack = s.stack := rfl
@[simp] theorem State.drawRandom_sp (s : State) : (s.drawRandom).sp = s.sp := rfl
@[simp] theorem State.drawRandom_dt (s : State) : (s.drawRandom).dt = s.dt := rfl
@[simp] theorem State.drawRandom_st (s : State) : (s.drawRandom).st = s.st := rfl
@[simp] theorem State.drawRandom_keys (s : State) : (s.drawRandom).keys = s.keys := rfl
@[simp] theorem State.drawRandom_keysPrev (s : State) : (s.drawRandom).keysPrev = s.keysPrev := rfl
@[simp] theorem State.drawRandom_fb (s : State) : (s.drawRandom).fb = s.fb := rfl
@[simp] theorem State.drawRandom_mem (s : State) : (s.drawRandom).mem = s.mem := rfl
@[simp] theorem State.drawRandom_status (s : State) : (s.drawRandom).status = s.status := rfl
@[simp] theorem State.drawRandom_rngDrawn (s : State) : (s.drawRandom).rngDrawn = s.rngDrawn + 1 := rfl
@[simp] theorem State.drawRandom_reg (s : State) (r : RegIx) : (s.drawRandom).reg r = s.reg r := rfl
@[simp] theorem State.drawRandom_stackEntry (s : State) (k : Fin 16) : (s.drawRandom).stackEntry k = s.stackEntry k := rfl
@[simp] theorem State.drawRandom_key (s : State) (k : KeyIx) : (s.drawRandom).key k = s.key k := rfl
@[simp] theorem State.drawRandom_keyPrev (s : State) (k : KeyIx) : (s.drawRandom).keyPrev k = s.keyPrev k := rfl
@[simp] theorem State.drawRandom_byteAt (s : State) (n : Nat) : (s.drawRandom).byteAt n = s.byteAt n := rfl
@[simp] theorem State.drawRandom_isRunning (s : State) : (s.drawRandom).isRunning = s.isRunning := rfl

/-! ## advance -/

@[simp] theorem State.advance_v (s : State) : (s.advance).v = s.v := rfl
@[simp] theorem State.advance_i (s : State) : (s.advance).i = s.i := rfl
@[simp] theorem State.advance_pc (s : State) : (s.advance).pc = s.pc + 2 := rfl
@[simp] theorem State.advance_stack (s : State) : (s.advance).stack = s.stack := rfl
@[simp] theorem State.advance_sp (s : State) : (s.advance).sp = s.sp := rfl
@[simp] theorem State.advance_dt (s : State) : (s.advance).dt = s.dt := rfl
@[simp] theorem State.advance_st (s : State) : (s.advance).st = s.st := rfl
@[simp] theorem State.advance_keys (s : State) : (s.advance).keys = s.keys := rfl
@[simp] theorem State.advance_keysPrev (s : State) : (s.advance).keysPrev = s.keysPrev := rfl
@[simp] theorem State.advance_fb (s : State) : (s.advance).fb = s.fb := rfl
@[simp] theorem State.advance_mem (s : State) : (s.advance).mem = s.mem := rfl
@[simp] theorem State.advance_status (s : State) : (s.advance).status = s.status := rfl
@[simp] theorem State.advance_rngDrawn (s : State) : (s.advance).rngDrawn = s.rngDrawn := rfl
@[simp] theorem State.advance_reg (s : State) (r : RegIx) : (s.advance).reg r = s.reg r := rfl
@[simp] theorem State.advance_stackEntry (s : State) (k : Fin 16) : (s.advance).stackEntry k = s.stackEntry k := rfl
@[simp] theorem State.advance_key (s : State) (k : KeyIx) : (s.advance).key k = s.key k := rfl
@[simp] theorem State.advance_keyPrev (s : State) (k : KeyIx) : (s.advance).keyPrev k = s.keyPrev k := rfl
@[simp] theorem State.advance_byteAt (s : State) (n : Nat) : (s.advance).byteAt n = s.byteAt n := rfl
@[simp] theorem State.advance_isRunning (s : State) : (s.advance).isRunning = s.isRunning := rfl

/-! ## A register after a register write -/

theorem State.setReg_reg (s : State) (x : RegIx) (b : Byte) (r : RegIx) :
    (s.setReg x b).reg r = if r = x then b else s.reg r := by
  simp only [State.reg, State.setReg, Vector.getElem_set, Fin.ext_iff, eq_comm (a := x.val)]

@[simp] theorem State.setReg_reg_self (s : State) (x : RegIx) (b : Byte) : (s.setReg x b).reg x = b := by
  simp [State.setReg_reg]

@[simp] theorem State.setReg_reg_ne (s : State) (b : Byte) (h : r ≠ x) : (s.setReg x b).reg r = s.reg r := by
  simp [State.setReg_reg, h]

/-! ## Other accessors after an update of what they read -/

@[simp] theorem State.setMem_byteAt (s : State) (m : Memory) (n : Nat) : (s.setMem m).byteAt n = m.read n := rfl

@[simp] theorem State.setKeysPrev_keyPrev (s : State) (k : KeyIx) : (s.setKeysPrev s.keys).keyPrev k = s.key k := rfl

@[simp] theorem State.setStatus_isRunning (s : State) (q : Status) : (s.setStatus q).isRunning = (q == .running) := rfl

theorem State.isRunning_iff (s : State) : s.isRunning = true ↔ s.status = .running := by
  simp [State.isRunning]

/-! ## The skip -/

@[simp] theorem State.skipIf_pc (s : State) (c : Bool) : (s.skipIf c).pc = if c then s.pc + 4 else s.pc + 2 := by
  cases c <;> rfl

theorem State.skipIf_eq (s : State) (c : Bool) : s.skipIf c = s.setPc (if c then s.pc + 4 else s.pc + 2) := by
  cases c <;> rfl

/-! ## The result and then the flag (R23, R267) -/

@[simp] theorem State.setRegThenFlag_flag (s : State) (x : RegIx) (b : Byte) (f : Bool) :
    (s.setRegThenFlag x b f).reg 15 = flagByte f := by
  simp [State.setRegThenFlag, flagReg]

theorem State.setRegThenFlag_reg (s : State) (x : RegIx) (b : Byte) (f : Bool) (r : RegIx) :
    (s.setRegThenFlag x b f).reg r = if r = 15 then flagByte f else if r = x then b else s.reg r := by
  simp only [State.setRegThenFlag, flagReg, State.setReg_reg]

@[simp] theorem State.setRegThenFlag_i (s : State) (x : RegIx) (b : Byte) (f : Bool) :
    (s.setRegThenFlag x b f).i = s.i := rfl
@[simp] theorem State.setRegThenFlag_pc (s : State) (x : RegIx) (b : Byte) (f : Bool) :
    (s.setRegThenFlag x b f).pc = s.pc := rfl
@[simp] theorem State.setRegThenFlag_stack (s : State) (x : RegIx) (b : Byte) (f : Bool) :
    (s.setRegThenFlag x b f).stack = s.stack := rfl
@[simp] theorem State.setRegThenFlag_sp (s : State) (x : RegIx) (b : Byte) (f : Bool) :
    (s.setRegThenFlag x b f).sp = s.sp := rfl
@[simp] theorem State.setRegThenFlag_dt (s : State) (x : RegIx) (b : Byte) (f : Bool) :
    (s.setRegThenFlag x b f).dt = s.dt := rfl
@[simp] theorem State.setRegThenFlag_st (s : State) (x : RegIx) (b : Byte) (f : Bool) :
    (s.setRegThenFlag x b f).st = s.st := rfl
@[simp] theorem State.setRegThenFlag_keys (s : State) (x : RegIx) (b : Byte) (f : Bool) :
    (s.setRegThenFlag x b f).keys = s.keys := rfl
@[simp] theorem State.setRegThenFlag_keysPrev (s : State) (x : RegIx) (b : Byte) (f : Bool) :
    (s.setRegThenFlag x b f).keysPrev = s.keysPrev := rfl
@[simp] theorem State.setRegThenFlag_fb (s : State) (x : RegIx) (b : Byte) (f : Bool) :
    (s.setRegThenFlag x b f).fb = s.fb := rfl
@[simp] theorem State.setRegThenFlag_mem (s : State) (x : RegIx) (b : Byte) (f : Bool) :
    (s.setRegThenFlag x b f).mem = s.mem := rfl
@[simp] theorem State.setRegThenFlag_status (s : State) (x : RegIx) (b : Byte) (f : Bool) :
    (s.setRegThenFlag x b f).status = s.status := rfl
@[simp] theorem State.setRegThenFlag_rngDrawn (s : State) (x : RegIx) (b : Byte) (f : Bool) :
    (s.setRegThenFlag x b f).rngDrawn = s.rngDrawn := rfl
@[simp] theorem State.setRegThenFlag_stackEntry (s : State) (x : RegIx) (b : Byte) (f : Bool) (k : Fin 16) :
    (s.setRegThenFlag x b f).stackEntry k = s.stackEntry k := rfl
@[simp] theorem State.setRegThenFlag_key (s : State) (x : RegIx) (b : Byte) (f : Bool) (k : KeyIx) :
    (s.setRegThenFlag x b f).key k = s.key k := rfl
@[simp] theorem State.setRegThenFlag_keyPrev (s : State) (x : RegIx) (b : Byte) (f : Bool) (k : KeyIx) :
    (s.setRegThenFlag x b f).keyPrev k = s.keyPrev k := rfl
@[simp] theorem State.setRegThenFlag_byteAt (s : State) (x : RegIx) (b : Byte) (f : Bool) (n : Nat) :
    (s.setRegThenFlag x b f).byteAt n = s.byteAt n := rfl
@[simp] theorem State.setRegThenFlag_isRunning (s : State) (x : RegIx) (b : Byte) (f : Bool) :
    (s.setRegThenFlag x b f).isRunning = s.isRunning := rfl

end Sys2Proof.Machine
end

