-- ==== Sys2Proof/Laws/Ops.lean ====
section
/-!
SUPPORT. One lemma for each shared operation that says everything it can do; the meanings' proofs cite these and do
not unfold the operations.
-/

namespace Sys2Proof.Machine

/-! ## The stack (R27) -/

theorem State.push_full {s : State} (a : Word) (h : s.sp.val = 16) : s.push a = none := by
  simp [State.push, h]

/-- A push that answers puts the value at `STACK[SP]`, counts it, and changes nothing else. -/
theorem State.push_some {s t : State} {a : Word} (h : s.push a = some t) :
    s.sp.val < 16 ∧ t.sp.val = s.sp.val + 1 ∧
      (∀ k : Fin 16, t.stackEntry k = if k.val = s.sp.val then a else s.stackEntry k) ∧
      t = { s with stack := t.stack, sp := t.sp } := by
  unfold State.push at h
  split at h
  · rename_i hs
    obtain rfl := Option.some.inj h
    refine ⟨hs, rfl, fun k => ?_, rfl⟩
    simp only [State.stackEntry, Vector.getElem_set, eq_comm (a := s.sp.val)]
  · cases h

theorem State.push_isSome {s : State} (a : Word) (h : s.sp.val < 16) : ∃ t, s.push a = some t := by
  simp [State.push, h]

theorem State.pop_empty {s : State} (h : s.sp.val = 0) : s.pop = none := by
  simp [State.pop, h]

/-- A pop with `k + 1` entries in use gives entry `k`, leaves `k` in use, and changes nothing else. -/
theorem State.pop_eq {s : State} (k : Fin 16) (h : s.sp.val = k.val + 1) :
    s.pop = some (s.stackEntry k, { s with sp := ⟨k.val, by omega⟩ }) := by
  have hp : 0 < s.sp.val := by omega
  have hk : s.sp.val - 1 = k.val := by omega
  simp [State.pop, hp, State.stackEntry, hk]

/-- A pop that answers is the pop of the newest entry. -/
theorem State.pop_some {s t : State} {a : Word} (h : s.pop = some (a, t)) :
    ∃ k : Fin 16, s.sp.val = k.val + 1 ∧ a = s.stackEntry k ∧ t = { s with sp := ⟨k.val, by omega⟩ } := by
  by_cases h0 : s.sp.val = 0
  · rw [State.pop_empty h0] at h; cases h
  · have hk : s.sp.val = (⟨s.sp.val - 1, by omega⟩ : Fin 16).val + 1 := by simp; omega
    rw [State.pop_eq _ hk] at h
    obtain ⟨ha, ht⟩ := Prod.mk.inj (Option.some.inj h)
    exact ⟨_, hk, ha.symm, ht.symm⟩

/-! ## Checked memory access (R55 to R57, R206) -/

theorem canRead_iff (a n : Nat) : canRead a n = true ↔ n = 0 ∨ a + n ≤ 4096 := by
  simp [canRead]

theorem canWrite_iff (a n : Nat) : canWrite a n = true ↔ 80 ≤ a ∧ a + n ≤ 4096 := by
  simp [canWrite]

theorem State.loadRun_none {s : State} {a n : Nat} : s.loadRun a n = none ↔ 0 < n ∧ 4096 < a + n := by
  unfold State.loadRun
  split
  · rename_i h; rw [canRead_iff] at h; simp; omega
  · rename_i h; rw [canRead_iff] at h; simp; omega

theorem State.loadRun_eq {s : State} {a n : Nat} (h : n = 0 ∨ a + n ≤ 4096) :
    s.loadRun a n = some (s.mem.readRun a n) := by
  rw [State.loadRun, if_pos ((canRead_iff a n).2 h)]

theorem State.storeRun_none {s : State} {a : Nat} {bs : List Byte} :
    s.storeRun a bs = none ↔ a < 80 ∨ 4096 < a + bs.length := by
  unfold State.storeRun
  split
  · rename_i h; rw [canWrite_iff] at h; simp; omega
  · rename_i h; rw [canWrite_iff] at h; simp; omega

theorem State.storeRun_eq {s : State} {a : Nat} {bs : List Byte} (h : 80 ≤ a ∧ a + bs.length ≤ 4096) :
    s.storeRun a bs = some (s.setMem (s.mem.writeRun a bs)) := by
  rw [State.storeRun, if_pos ((canWrite_iff _ _).2 h)]

/-- A store that answers went to writable addresses only and changed memory only. -/
theorem State.storeRun_some {s t : State} {a : Nat} {bs : List Byte} (h : s.storeRun a bs = some t) :
    (80 ≤ a ∧ a + bs.length ≤ 4096) ∧ t = s.setMem (s.mem.writeRun a bs) := by
  unfold State.storeRun at h
  split at h
  · rename_i hw; exact ⟨(canWrite_iff _ _).1 hw, (Option.some.inj h).symm⟩
  · cases h

theorem State.fetchAt_eq {s : State} {a : Nat} (h : a + 1 < 4096) :
    s.fetchAt a = some (wordOfBytes (s.byteAt a) (s.byteAt (a + 1))) := by
  simp [State.fetchAt, h, State.byteAt]

theorem State.fetchAt_none {s : State} {a : Nat} : s.fetchAt a = none ↔ 4096 ≤ a + 1 := by
  simp only [State.fetchAt, Config.memSize]
  split <;> simp <;> omega

/-! ## Operand forms -/

theorem tableIndex?_eq {b : Byte} (k : Fin 16) (h : b.toNat = k.val) : tableIndex? b = some k := by
  simp [tableIndex?, h]

theorem tableIndex?_none {b : Byte} : tableIndex? b = none ↔ 16 ≤ b.toNat := by
  simp [tableIndex?]

theorem length_decimalDigits (b : Byte) : (decimalDigits b).length = 3 := rfl

theorem length_registersTo (x : RegIx) (v : Vector Byte 16) : (registersTo x v).length = x.val + 1 := by
  simp [registersTo, countTo]

theorem getD_registersTo (x r : RegIx) (v : Vector Byte 16) (h : r ≤ x) :
    (registersTo x v).getD r.val 0 = v[r.val] := by
  have h' : r.val ≤ x.val := h
  simp [registersTo, countTo, List.getD, show r.val < x.val + 1 by omega]

theorem getElem_loadRegisters (bs : List Byte) (k : Nat) (v : Vector Byte 16) (r : Nat) (hr : r < 16) :
    (loadRegisters k bs v)[r] = if k ≤ r ∧ r < k + bs.length then bs.getD (r - k) 0 else v[r] := by
  induction bs generalizing k v with
  | nil => simp [loadRegisters]
  | cons b bs ih =>
    rw [loadRegisters, ih, Vector.getElem_setIfInBounds]
    by_cases h : r = k
    · subst h; simp
    · by_cases h' : k + 1 ≤ r ∧ r < k + 1 + bs.length
      · rw [if_pos h', if_pos (by simp; omega)]
        obtain ⟨j, rfl⟩ : ∃ j, r = k + 1 + j := ⟨r - (k + 1), by omega⟩
        rw [show k + 1 + j - (k + 1) = j by omega, show k + 1 + j - k = j + 1 by omega]
        simp
      · rw [if_neg h', if_neg (by omega), if_neg (by simp; omega)]

/-- What the registers hold after `bs` is loaded into `V[0]` and on (R145). -/
theorem State.setRegsFrom0_reg (s : State) (bs : List Byte) (r : RegIx) :
    (s.setRegsFrom0 bs).reg r = if r.val < bs.length then bs.getD r.val 0 else s.reg r := by
  simp [State.reg, State.setRegsFrom0, getElem_loadRegisters]

/-! ## The keys (R163) -/

theorem State.newlyPressed_iff (s : State) (k : KeyIx) :
    s.newlyPressed k = true ↔ s.key k = true ∧ s.keyPrev k = false := by
  simp [State.newlyPressed]

theorem State.newKey?_none {s : State} : s.newKey? = none ↔ ∀ k, s.newlyPressed k = false := by
  unfold State.newKey?
  rw [List.find?_eq_none]
  have : ∀ k : KeyIx, k ∈ allKeys := by decide
  simp [this]

/-- The key reported is the lowest of those that went down. -/
theorem State.newKey?_eq {s : State} (k : KeyIx) (hk : s.newlyPressed k = true)
    (hlow : ∀ j < k, s.newlyPressed j = false) : s.newKey? = some k := by
  unfold State.newKey?
  rw [List.find?_eq_some_iff_append]
  refine ⟨hk, allKeys.take k.val, allKeys.drop (k.val + 1), ?_, fun j hj => ?_⟩
  · have : ∀ k : KeyIx, allKeys = allKeys.take k.val ++ k :: allKeys.drop (k.val + 1) := by decide
    exact this k
  · have : ∀ k j : KeyIx, j ∈ allKeys.take k.val → j < k := by decide
    simp [hlow j (this k j hj)]

/-! ## Fatal errors and the end of a cycle (R205, R76) -/

@[simp] theorem raise_eq (kind : ErrorKind) (o : Option Word) (s : State) :
    raise kind o s = .next { s with status := .halted kind s.pc o } := rfl

@[simp] theorem raiseIn_eq (i : Instr) (kind : ErrorKind) (s : State) :
    raiseIn i kind s = .next { s with status := .halted kind s.pc (some (encode i)) } := rfl

@[simp] theorem endCycle_next (t : State) : endCycle (.next t) = .next (sampleKeys t) := rfl

theorem sampleKeys_running {t : State} (h : t.status = .running) : sampleKeys t = t.setKeysPrev t.keys := by
  simp [sampleKeys, State.isRunning, h]

theorem sampleKeys_halted {t : State} (h : t.status ≠ .running) : sampleKeys t = t := by
  simp [sampleKeys, State.isRunning, h]

@[simp] theorem andThen_next (t : State) (f : State → StepResult) : andThen (.next t) f = f t := rfl

end Sys2Proof.Machine
end

