-- ==== Sys2Proof/Laws/Step.lean ====
section
/-!
SUPPORT. What a step can do, said once (rule R76): halted, fetch error, illegal word, or the decoded instruction;
and that `withFetchWord` makes the next step run its word.
-/

namespace Sys2Proof.Machine

theorem step_halted {s : State} (h : s.status ≠ .running) : step s = .next s := by
  unfold step
  split
  · rfl
  · rename_i hr; exact absurd hr h

theorem step_fetch_error {s : State} (hr : s.status = .running) (h : s.fetch = none) :
    step s = .next { s with status := .halted .outOfBounds s.pc none } := by
  simp [step, hr, h]

theorem step_illegal {s : State} {w : Word} (hr : s.status = .running) (hw : s.fetch = some w)
    (h : decodeWord w = .error e) :
    step s = .next { s with status := .halted .unsupportedOpcode s.pc (some w) } := by
  simp [step, hr, hw, h]

theorem step_instr {s : State} {w : Word} {i : Instr} (hr : s.status = .running) (hw : s.fetch = some w)
    (h : decodeWord w = .ok i) : step s = endCycle (exec i s) := by
  simp [step, hr, hw, h]

/-- The cases of a step. -/
theorem step_cases (s : State) :
    (s.status ≠ .running ∧ step s = .next s) ∨
    (s.status = .running ∧ s.fetch = none ∧ step s = .next { s with status := .halted .outOfBounds s.pc none }) ∨
    (∃ w e, s.status = .running ∧ s.fetch = some w ∧ decodeWord w = .error e ∧
      step s = .next { s with status := .halted .unsupportedOpcode s.pc (some w) }) ∨
    (∃ w i, s.status = .running ∧ s.fetch = some w ∧ decodeWord w = .ok i ∧ step s = endCycle (exec i s)) := by
  by_cases hr : s.status = .running
  · rcases hf : s.fetch with _ | w
    · exact .inr (.inl ⟨hr, rfl, step_fetch_error hr hf⟩)
    · rcases hd : decodeWord w with e | i
      · exact .inr (.inr (.inl ⟨w, e, hr, rfl, hd, step_illegal hr hf hd⟩))
      · exact .inr (.inr (.inr ⟨w, i, hr, rfl, hd, step_instr hr hf hd⟩))
  · exact .inl ⟨hr, step_halted hr⟩

/-- The word placed by `withFetchWord` is the word the next step fetches. -/
theorem State.withFetchWord_fetch (s : State) (nbits w : Nat) :
    (s.withFetchWord nbits w).fetch = some (BitVec.ofNat 16 (w % 2 ^ nbits)) := by
  have hb : (fetchBase s).toNat + 1 < 4096 := by
    unfold fetchBase; split
    · assumption
    · decide
  have h1 := (fetchBase s).isLt
  simp [State.withFetchWord, placeForFetch, State.fetch, State.fetchAt, hb, Memory.read_writeRun,
    bytesOfTableWord, bytesOfWord, wordOfBytes_bytesOfWord]

theorem State.withFetchWord_status (s : State) (nbits w : Nat) : (s.withFetchWord nbits w).status = .running := rfl

end Sys2Proof.Machine
end

