-- ==== Sys2Proof/Laws/Events.lean ====
section
/-!
SUPPORT. The environment's events and their sequences, one lemma for each case (rules R64, R221, R227, R231, R256).
-/

namespace Sys2Proof.Machine

/-! ## Single events -/

/-- A tick takes 1 from a timer, stopping at 0 (R221). -/
theorem countDown_toNat (b : Byte) : (countDown b).toNat = b.toNat - 1 := by
  revert b; decide

theorem tick_running {s : State} (h : s.status = .running) :
    tick s = (s.setDt (countDown s.dt)).setSt (countDown s.st) := by
  simp [tick, State.isRunning, h]

theorem keySet_running {s : State} (h : s.status = .running) (k : KeyIx) (b : Bool) :
    keySet k b s = s.setKeys (s.keys.set k.val b) := by
  simp [keySet, State.isRunning, h]

theorem loadProgram_fits {s : State} {bytes : List Byte} (h : s.status = .running) (hl : bytes.length ≤ 3584) :
    loadProgram bytes s = s.setMem (s.mem.writeRun 0x200 bytes) := by
  simp only [loadProgram, State.isRunning, h]
  rw [if_pos (by decide), if_neg (by simp only [Config.maxProgram]; omega)]
  rfl

theorem loadProgram_too_long {s : State} {bytes : List Byte} (h : s.status = .running) (hl : 3584 < bytes.length) :
    loadProgram bytes s = s.setStatus (.halted .outOfBounds 0x0200 none) := by
  simp only [loadProgram, State.isRunning, h]
  rw [if_pos (by decide), if_pos hl]

/-- A halted core is frozen for the environment (R231). -/
theorem events_halted {s : State} (h : s.status ≠ .running) :
    tick s = s ∧ (∀ k b, keySet k b s = s) ∧ ∀ bytes, loadProgram bytes s = s := by
  simp [tick, keySet, loadProgram, State.isRunning, h]

/-! ## Sequences -/

theorem andThen_eq_next {r : StepResult} {f : State → StepResult} {t : State} (h : andThen r f = .next t) :
    ∃ u, r = .next u ∧ f u = .next t := by
  cases r with
  | next u => exact ⟨u, rfl, h⟩
  | fault e => cases h
  | refused q => cases h

theorem runEvents_cons {e : Event} (h : e ≠ .quit) (es : List Event) (s : State) :
    runEvents (e :: es) s = andThen (e.apply s) (runEvents es) := by
  cases e <;> first | rfl | exact absurd rfl h

/-- A sequence without `Quit`, and then another, is one sequence. -/
theorem runEvents_append {es : List Event} (h : ∀ e ∈ es, e ≠ .quit) (fs : List Event) {s t : State}
    (hs : runEvents es s = .next t) : runEvents (es ++ fs) s = runEvents fs t := by
  induction es generalizing s with
  | nil =>
    cases hs
    rfl
  | cons e es ih =>
    have he : e ≠ .quit := h e (by simp)
    rw [runEvents_cons he] at hs
    obtain ⟨u, hu, hs⟩ := andThen_eq_next hs
    rw [List.cons_append, runEvents_cons he, hu]
    exact ih (fun e he => h e (by simp [he])) hs

end Sys2Proof.Machine
end

