-- ==== Sys2Proof/Laws/Framebuffer.lean ====
section
/-!
SUPPORT. The framebuffer's laws (rules R150 to R152): a pixel after a pixel is written, what one flip does, and
`draw_flips`, the spec lemma of a whole drawing: it flips the pixels of one set, and it is a collision exactly when
one of them was set.
-/

namespace Sys2Proof.Machine

theorem Framebuffer.pixel_setPixel (fb : Framebuffer) (x x' : Col) (y y' : Row) (b : Bool) :
    (fb.setPixel x y b).pixel x' y' = if x' = x ∧ y' = y then b else fb.pixel x' y' := by
  simp only [Framebuffer.pixel, Framebuffer.setPixel, Vector.getElem_set, Fin.ext_iff]
  by_cases hy : y.val = y'.val
  · by_cases hx : x.val = x'.val
    · simp [hy, hx]
    · simp [hy, hx, Ne.symm hx]
  · simp [hy, Ne.symm hy]

@[simp] theorem Framebuffer.pixel_blank (x : Col) (y : Row) : Framebuffer.blank.pixel x y = false := by
  simp [Framebuffer.blank, Framebuffer.pixel]

theorem Drawing.flip_pixel (d : Drawing) (x x' : Col) (y y' : Row) :
    (d.flip x y).fb.pixel x' y' = if x' = x ∧ y' = y then !d.fb.pixel x' y' else d.fb.pixel x' y' := by
  rw [Drawing.flip, Framebuffer.pixel_setPixel]
  split
  · rename_i h; rw [h.1, h.2]
  · rfl

theorem Drawing.flip_collision (d : Drawing) (x : Col) (y : Row) :
    (d.flip x y).collision = (d.collision || d.fb.pixel x y) := rfl

/-- Framebuffers with the same pixels are equal. -/
theorem Framebuffer.ext_pixel {f g : Framebuffer} (h : ∀ x y, f.pixel x y = g.pixel x y) : f = g := by
  ext y hy x hx
  exact h ⟨x, hx⟩ ⟨y, hy⟩

/-! ## A drawing flips a set of pixels (R152) -/

/-- From `d` to `e`, the pixels of `f` were flipped and no other, and the collision flag went up exactly when one of
them was set in `d`. -/
def Drawing.Flips (d e : Drawing) (f : Col → Row → Bool) : Prop :=
  (∀ x y, e.fb.pixel x y = xor (d.fb.pixel x y) (f x y)) ∧
  (e.collision = true ↔ d.collision = true ∨ ∃ x y, f x y = true ∧ d.fb.pixel x y = true)

theorem Drawing.Flips.congr {d e : Drawing} {f g : Col → Row → Bool} (h : d.Flips e f) (hfg : ∀ x y, f x y = g x y) :
    d.Flips e g := by
  obtain rfl : f = g := by funext x y; exact hfg x y
  exact h

/-- Two drawings over sets without a pixel in common flip their union. -/
theorem Drawing.Flips.trans {d e k : Drawing} {f g : Col → Row → Bool} (h1 : d.Flips e f) (h2 : e.Flips k g)
    (disjoint : ∀ x y, f x y = true → g x y = false) : d.Flips k (fun x y => f x y || g x y) := by
  refine ⟨fun x y => ?_, ?_⟩
  · rw [h2.1, h1.1]
    cases hf : f x y
    · simp [hf]
    · simp [hf, disjoint x y hf]
  · rw [h2.2, h1.2]
    constructor
    · rintro ((hd | ⟨x, y, hf, hp⟩) | ⟨x, y, hg, hp⟩)
      · exact .inl hd
      · exact .inr ⟨x, y, by simp [hf], hp⟩
      · refine .inr ⟨x, y, by simp [hg], ?_⟩
        rw [h1.1] at hp
        cases hf : f x y
        · simpa [hf] using hp
        · rw [disjoint x y hf] at hg; cases hg
    · rintro (hd | ⟨x, y, hfg, hp⟩)
      · exact .inl (.inl hd)
      · cases hf : f x y
        · exact .inr ⟨x, y, by simpa [hf] using hfg, by rw [h1.1, hf, hp]; rfl⟩
        · exact .inl (.inr ⟨x, y, hf, hp⟩)

/-- The one pixel of column `c` of a sprite row, if its bit is 1. -/
def bitSet (x0 y : Nat) (b : Byte) (c : Nat) (px : Col) (py : Row) : Bool :=
  b.getLsbD (7 - c) && decide (px.val = (x0 + c) % 64) && decide (py.val = y % 32)

theorem Drawing.spriteBit_flips (d : Drawing) (x0 y : Nat) (b : Byte) (c : Nat) :
    d.Flips (d.spriteBit x0 y b c) (bitSet x0 y b c) := by
  unfold Drawing.spriteBit
  split
  · rename_i h
    refine ⟨fun px py => ?_, ?_⟩
    · rw [Drawing.flip_pixel]
      simp only [bitSet, h, Fin.ext_iff, Fin.ofNat]
      by_cases h1 : px.val = (x0 + c) % 64 <;> by_cases h2 : py.val = y % 32 <;> simp [h1, h2]
    · rw [Drawing.flip_collision, Bool.or_eq_true]
      refine or_congr_right ⟨fun hp => ⟨_, _, by simp [bitSet, h, Fin.ofNat], hp⟩, ?_⟩
      rintro ⟨px, py, hs, hp⟩
      simp only [bitSet, Bool.and_eq_true, decide_eq_true_eq] at hs
      rw [← show px = Fin.ofNat 64 (x0 + c) from Fin.ext hs.1.2, ← show py = Fin.ofNat 32 y from Fin.ext hs.2]
      exact hp
  · rename_i h
    simp only [Bool.not_eq_true] at h
    simp [Drawing.Flips, bitSet, h]

/-- The pixels under the first `k` columns of a sprite row. -/
def colsSet (x0 y : Nat) (b : Byte) (k : Nat) (px : Col) (py : Row) : Bool :=
  let c := (px.val + 64 - x0 % 64) % 64
  decide (c < k) && decide (py.val = y % 32) && b.getLsbD (7 - c)

theorem Drawing.cols_flips (d : Drawing) (x0 y : Nat) (b : Byte) (k : Nat) (hk : k ≤ 8) :
    d.Flips ((List.range k).foldl (fun d c => d.spriteBit x0 y b c) d) (colsSet x0 y b k) := by
  induction k with
  | zero => simp [Drawing.Flips, colsSet]
  | succ k ih =>
    rw [List.range_succ, List.foldl_append]
    refine ((ih (by omega)).trans (Drawing.spriteBit_flips _ x0 y b k) ?_).congr ?_
    · intro px py h
      simp only [colsSet, Bool.and_eq_true, decide_eq_true_eq] at h
      have := px.isLt
      simp [bitSet]; intro _ h2; omega
    · intro px py
      have := px.isLt
      simp only [colsSet, bitSet]
      rw [show decide (px.val = (x0 + k) % 64) = decide ((px.val + 64 - x0 % 64) % 64 = k) from
        decide_eq_decide.2 (by omega)]
      generalize (px.val + 64 - x0 % 64) % 64 = c
      rcases Nat.lt_trichotomy c k with h | h | h
      · simp [h, show c < k + 1 by omega, show c ≠ k by omega]
      · subst h; simpa using Bool.and_comm _ _
      · simp [show ¬ c < k by omega, show ¬ c < k + 1 by omega, show c ≠ k by omega]

/-- The pixels under the 1 bits of the sprite rows `bs` drawn from (`x0`, `y`). -/
def spriteSet (x0 y : Nat) (bs : List Byte) (px : Col) (py : Row) : Bool :=
  let c := (px.val + 64 - x0 % 64) % 64
  let r := (py.val + 32 - y % 32) % 32
  decide (c < 8) && decide (r < bs.length) && (bs.getD r 0).getLsbD (7 - c)

theorem Drawing.sprite_flips (bs : List Byte) (d : Drawing) (x0 y : Nat) (h : bs.length ≤ 32) :
    d.Flips (d.sprite x0 y bs) (spriteSet x0 y bs) := by
  induction bs generalizing d y with
  | nil => simp [Drawing.Flips, spriteSet, Drawing.sprite]
  | cons b bs ih =>
    simp only [List.length_cons] at h
    refine ((Drawing.cols_flips d x0 y b 8 (le_refl _)).trans (ih _ (y + 1) (by omega)) ?_).congr ?_
    · intro px py h'
      have := py.isLt
      simp only [colsSet, Bool.and_eq_true, decide_eq_true_eq] at h'
      simp [spriteSet]; omega
    · intro px py
      have := py.isLt
      simp only [colsSet, spriteSet]
      by_cases hr : py.val = y % 32
      · rw [show (py.val + 32 - y % 32) % 32 = 0 by omega, show (py.val + 32 - (y + 1) % 32) % 32 = 31 by omega]
        simp [hr, show ¬ 31 < bs.length by omega]
      · obtain ⟨k, hk⟩ : ∃ k, (py.val + 32 - y % 32) % 32 = k + 1 := ⟨(py.val + 32 - y % 32) % 32 - 1, by omega⟩
        rw [hk, show (py.val + 32 - (y + 1) % 32) % 32 = k by omega]
        simp [hr]

/-- A sprite of at most 32 rows drawn on `fb` flips the pixels under its 1 bits and no other, and it is a collision
exactly when one of them was set (R152). -/
theorem Framebuffer.draw_flips (fb : Framebuffer) (x0 y0 : Nat) (bs : List Byte) (h : bs.length ≤ 32) :
    (∀ px py, (fb.draw x0 y0 bs).fb.pixel px py = xor (fb.pixel px py) (spriteSet x0 y0 bs px py)) ∧
    ((fb.draw x0 y0 bs).collision = true ↔ ∃ px py, spriteSet x0 y0 bs px py = true ∧ fb.pixel px py = true) := by
  obtain ⟨hp, hc⟩ := Drawing.sprite_flips bs ⟨fb, false⟩ x0 y0 h
  exact ⟨hp, hc.trans (by simp)⟩

end Sys2Proof.Machine
end

