-- ==== Sys2Proof/Laws/PerInstr.lean ====
section
/-!
SUPPORT. The family of LAWS.json, one lemma per constructor of `Instr`: the word of an instruction carries the fixed
bits of that instruction's row of the opcode map (R74, R82).
-/

namespace Sys2Proof.Laws

/-- The mask and the value of the row of the opcode map with this mnemonic. -/
def rowOf (mnemonic : String) : Option (Word × Word) :=
  (opcodeTable.find? (fun r => r.mnemonic == mnemonic)).map (fun r => (r.mask, r.value))

/-- The instruction's row exists, and its word has the row's fixed bits. -/
def FixedBits.Statement (i : Instr) : Prop :=
  ∃ mask value, rowOf i.mnemonic = some (mask, value) ∧ encode i &&& mask = value

/-! ## The fixed bits of each format -/

theorem and_F (v : BitVec 4) : v &&& 0xF#4 = v := BitVec.and_allOnes

theorem and_FF (v : BitVec 8) : v &&& 0xFF#8 = v := BitVec.and_allOnes

theorem formNNN_fixed (op : BitVec 4) (nnn : Addr12) : formNNN op nnn &&& 0xF000#16 = formNNN op 0 := by
  show (op ++ nnn) &&& (0xF#4 ++ 0x000#12) = op ++ 0#12
  simp only [BitVec.and_append, and_F, BitVec.and_zero]

theorem formXNN_fixed (op : BitVec 4) (x : RegIx) (nn : Byte) :
    formXNN op x nn &&& 0xF000#16 = formXNN op 0 0 := by
  show (op ++ regField x ++ nn) &&& (0xF#4 ++ 0x0#4 ++ 0x00#8) = op ++ 0#4 ++ 0#8
  simp only [BitVec.and_append, and_F, BitVec.and_zero]

theorem formX_fixed (op : BitVec 4) (x : RegIx) (sub : Byte) : formX op x sub &&& 0xF0FF#16 = formX op 0 sub := by
  show (op ++ regField x ++ sub) &&& (0xF#4 ++ 0x0#4 ++ 0xFF#8) = op ++ 0#4 ++ sub
  simp only [BitVec.and_append, and_F, and_FF, BitVec.and_zero]

theorem formXY_fixed (op : BitVec 4) (x y : RegIx) (n : Nibble) :
    formXY op x y n &&& 0xF00F#16 = formXY op 0 0 n := by
  show (op ++ regField x ++ regField y ++ n) &&& (0xF#4 ++ 0x0#4 ++ 0x0#4 ++ 0xF#4) = op ++ 0#4 ++ 0#4 ++ n
  simp only [BitVec.and_append, and_F, BitVec.and_zero]

theorem formXYN_fixed (op : BitVec 4) (x y : RegIx) (n : Nibble) :
    formXY op x y n &&& 0xF000#16 = formXY op 0 0 0 := by
  show (op ++ regField x ++ regField y ++ n) &&& (0xF#4 ++ 0x0#4 ++ 0x0#4 ++ 0x0#4) = op ++ 0#4 ++ 0#4 ++ 0#4
  simp only [BitVec.and_append, and_F, BitVec.and_zero]

/-! ## The instructions -/

theorem FixedBits.cls : FixedBits.Statement .cls := ⟨_, _, rfl, rfl⟩
theorem FixedBits.ret : FixedBits.Statement .ret := ⟨_, _, rfl, rfl⟩
theorem FixedBits.sys (nnn : Addr12) : FixedBits.Statement (.sys nnn) := ⟨_, _, rfl, formNNN_fixed _ _⟩
theorem FixedBits.jp (nnn : Addr12) : FixedBits.Statement (.jp nnn) := ⟨_, _, rfl, formNNN_fixed _ _⟩
theorem FixedBits.call (nnn : Addr12) : FixedBits.Statement (.call nnn) := ⟨_, _, rfl, formNNN_fixed _ _⟩
theorem FixedBits.seImm (x : RegIx) (nn : Byte) : FixedBits.Statement (.seImm x nn) := ⟨_, _, rfl, formXNN_fixed _ _ _⟩
theorem FixedBits.sneImm (x : RegIx) (nn : Byte) : FixedBits.Statement (.sneImm x nn) := ⟨_, _, rfl, formXNN_fixed _ _ _⟩
theorem FixedBits.seReg (x y : RegIx) : FixedBits.Statement (.seReg x y) := ⟨_, _, rfl, formXY_fixed _ _ _ _⟩
theorem FixedBits.ldImm (x : RegIx) (nn : Byte) : FixedBits.Statement (.ldImm x nn) := ⟨_, _, rfl, formXNN_fixed _ _ _⟩
theorem FixedBits.addImm (x : RegIx) (nn : Byte) : FixedBits.Statement (.addImm x nn) := ⟨_, _, rfl, formXNN_fixed _ _ _⟩
theorem FixedBits.ldReg (x y : RegIx) : FixedBits.Statement (.ldReg x y) := ⟨_, _, rfl, formXY_fixed _ _ _ _⟩
theorem FixedBits.orReg (x y : RegIx) : FixedBits.Statement (.orReg x y) := ⟨_, _, rfl, formXY_fixed _ _ _ _⟩
theorem FixedBits.andReg (x y : RegIx) : FixedBits.Statement (.andReg x y) := ⟨_, _, rfl, formXY_fixed _ _ _ _⟩
theorem FixedBits.xorReg (x y : RegIx) : FixedBits.Statement (.xorReg x y) := ⟨_, _, rfl, formXY_fixed _ _ _ _⟩
theorem FixedBits.addReg (x y : RegIx) : FixedBits.Statement (.addReg x y) := ⟨_, _, rfl, formXY_fixed _ _ _ _⟩
theorem FixedBits.sub (x y : RegIx) : FixedBits.Statement (.sub x y) := ⟨_, _, rfl, formXY_fixed _ _ _ _⟩
theorem FixedBits.shr (x y : RegIx) : FixedBits.Statement (.shr x y) := ⟨_, _, rfl, formXY_fixed _ _ _ _⟩
theorem FixedBits.subn (x y : RegIx) : FixedBits.Statement (.subn x y) := ⟨_, _, rfl, formXY_fixed _ _ _ _⟩
theorem FixedBits.shl (x y : RegIx) : FixedBits.Statement (.shl x y) := ⟨_, _, rfl, formXY_fixed _ _ _ _⟩
theorem FixedBits.sneReg (x y : RegIx) : FixedBits.Statement (.sneReg x y) := ⟨_, _, rfl, formXY_fixed _ _ _ _⟩
theorem FixedBits.ldI (nnn : Addr12) : FixedBits.Statement (.ldI nnn) := ⟨_, _, rfl, formNNN_fixed _ _⟩
theorem FixedBits.jpV0 (nnn : Addr12) : FixedBits.Statement (.jpV0 nnn) := ⟨_, _, rfl, formNNN_fixed _ _⟩
theorem FixedBits.rnd (x : RegIx) (nn : Byte) : FixedBits.Statement (.rnd x nn) := ⟨_, _, rfl, formXNN_fixed _ _ _⟩
theorem FixedBits.drw (x y : RegIx) (n : Nibble) : FixedBits.Statement (.drw x y n) := ⟨_, _, rfl, formXYN_fixed _ _ _ _⟩
theorem FixedBits.skp (x : RegIx) : FixedBits.Statement (.skp x) := ⟨_, _, rfl, formX_fixed _ _ _⟩
theorem FixedBits.sknp (x : RegIx) : FixedBits.Statement (.sknp x) := ⟨_, _, rfl, formX_fixed _ _ _⟩
theorem FixedBits.ldVxDt (x : RegIx) : FixedBits.Statement (.ldVxDt x) := ⟨_, _, rfl, formX_fixed _ _ _⟩
theorem FixedBits.ldVxK (x : RegIx) : FixedBits.Statement (.ldVxK x) := ⟨_, _, rfl, formX_fixed _ _ _⟩
theorem FixedBits.ldDtVx (x : RegIx) : FixedBits.Statement (.ldDtVx x) := ⟨_, _, rfl, formX_fixed _ _ _⟩
theorem FixedBits.ldStVx (x : RegIx) : FixedBits.Statement (.ldStVx x) := ⟨_, _, rfl, formX_fixed _ _ _⟩
theorem FixedBits.addI (x : RegIx) : FixedBits.Statement (.addI x) := ⟨_, _, rfl, formX_fixed _ _ _⟩
theorem FixedBits.ldF (x : RegIx) : FixedBits.Statement (.ldF x) := ⟨_, _, rfl, formX_fixed _ _ _⟩
theorem FixedBits.ldB (x : RegIx) : FixedBits.Statement (.ldB x) := ⟨_, _, rfl, formX_fixed _ _ _⟩
theorem FixedBits.ldMemVx (x : RegIx) : FixedBits.Statement (.ldMemVx x) := ⟨_, _, rfl, formX_fixed _ _ _⟩
theorem FixedBits.ldVxMem (x : RegIx) : FixedBits.Statement (.ldVxMem x) := ⟨_, _, rfl, formX_fixed _ _ _⟩

end Sys2Proof.Laws
end

