-- ==== Sys2Proof/Tests/Slice0.lean ====
section
/-!
SUPPORT. The model's own tests. Their expected values come from spec/95_test_vectors.md (the id stands at each test)
or, where it gives none, from the rule named. Decoding is tested on words written out bit by bit from the patterns of
the opcode map. The last part holds, for every obligation with hypotheses, a witness: concrete values that meet them.
-/

namespace Sys2Proof.Tests

open Sys2Proof.Machine Sys2Proof.Safety

/-! ## Helpers -/

/-- The next state, if the answer is one. -/
def nextState? (r : StepResult) : Option State :=
  match r with
  | .next t => some t
  | .fault _ => none
  | .refused _ => none

/-- One `Step` of the state with the word `w` placed at `PC`. -/
def stepOn (w : Nat) (s : State) : Option State := nextState? (step (s.withFetchWord 16 w))

/-- The state with these registers. -/
def withRegs (l : List (RegIx × Byte)) (s : State) : State := l.foldl (fun s c => s.setReg c.1 c.2) s

/-- The state with these bytes from address `a` on. -/
def withBytes (a : Nat) (bs : List Byte) (s : State) : State := s.setMem (s.mem.writeRun a bs)

/-- The state with these pixels set. -/
def withPixels (l : List (Col × Row)) (s : State) : State :=
  s.setFb (l.foldl (fun fb c => fb.setPixel c.1 c.2 true) s.fb)

/-- The state with these keys down, and these down at the last sample. -/
def withKeys (down before : List KeyIx) (s : State) : State :=
  (s.setKeys (Vector.ofFn fun k => down.contains k)).setKeysPrev (Vector.ofFn fun k => before.contains k)

/-- The reset state with `n` entries on the stack, each `a`. -/
def withStack (n : Fin 17) (a : Word) : State := { State.reset with stack := Vector.replicate 16 a, sp := n }

/-- How many pixels are set. -/
def litCount (t : State) : Nat := (t.fb.toList.map fun r => (r.toList.filter id).length).sum

/-- These pixels are set, and no other. -/
def litExactly (l : List (Col × Row)) (t : State) : Bool :=
  l.all (fun c => t.fb.pixel c.1 c.2) && litCount t == l.length

/-- A halted state. -/
def halted : State := State.reset.setStatus (.halted .stackUnderflow 0x0200 (some 0x00EE))

theorem next_of_isSome {r : StepResult} (h : (nextState? r).isSome = true) : ∃ t, r = .next t := by
  cases r with
  | next t => exact ⟨t, rfl⟩
  | fault f => cases f
  | refused q => cases h

/-! ## Well-formedness -/

theorem test_wellFormed_refuses_the_word_of_cls : (Instr.sys 0x0E0).wellFormed = false := by decide
theorem test_wellFormed_refuses_the_word_of_ret : (Instr.sys 0x0EE).wellFormed = false := by decide
theorem test_wellFormed_accepts : (Instr.sys 0x0E1).wellFormed = true ∧ (Instr.drw 15 15 0).wellFormed = true := by
  decide

/-! ## Decoding, each constructor by a word written out from its pattern (R71, R74) -/

theorem test_decode_family0 :
    decodeWord 0b0000000011100000#16 = .ok .cls ∧ decodeWord 0b0000000011101110#16 = .ok .ret ∧
    decodeWord 0b0000000000000000#16 = .ok (.sys 0x000) ∧ decodeWord 0b0000000111100000#16 = .ok (.sys 0x1E0) := by
  decide

theorem test_decode_families_1_to_7 :
    decodeWord 0b0001001000110100#16 = .ok (.jp 0x234) ∧ decodeWord 0b0010101010111100#16 = .ok (.call 0xABC) ∧
    decodeWord 0b0011101001000010#16 = .ok (.seImm 10 0x42) ∧ decodeWord 0b0100000111101110#16 = .ok (.sneImm 1 0xEE) ∧
    decodeWord 0b0101000100100000#16 = .ok (.seReg 1 2) ∧ decodeWord 0b0110111110101011#16 = .ok (.ldImm 15 0xAB) ∧
    decodeWord 0b0111000100000010#16 = .ok (.addImm 1 0x02) := by decide

theorem test_decode_family8 :
    decodeWord 0b1000000111110000#16 = .ok (.ldReg 1 15) ∧ decodeWord 0b1000000111110001#16 = .ok (.orReg 1 15) ∧
    decodeWord 0b1000000111110010#16 = .ok (.andReg 1 15) ∧ decodeWord 0b1000000111110011#16 = .ok (.xorReg 1 15) ∧
    decodeWord 0b1000000111110100#16 = .ok (.addReg 1 15) ∧ decodeWord 0b1000000111110101#16 = .ok (.sub 1 15) ∧
    decodeWord 0b1000000111110110#16 = .ok (.shr 1 15) ∧ decodeWord 0b1000000111110111#16 = .ok (.subn 1 15) ∧
    decodeWord 0b1000000111111110#16 = .ok (.shl 1 15) := by decide

theorem test_decode_families_9_to_E :
    decodeWord 0b1001001100010000#16 = .ok (.sneReg 3 1) ∧ decodeWord 0b1010001100000000#16 = .ok (.ldI 0x300) ∧
    decodeWord 0b1011001000000001#16 = .ok (.jpV0 0x201) ∧ decodeWord 0b1100001100001111#16 = .ok (.rnd 3 0x0F) ∧
    decodeWord 0b1101000000010101#16 = .ok (.drw 0 1 5) ∧ decodeWord 0b1110001110011110#16 = .ok (.skp 3) ∧
    decodeWord 0b1110001110100001#16 = .ok (.sknp 3) := by decide

theorem test_decode_familyF :
    decodeWord 0b1111000100000111#16 = .ok (.ldVxDt 1) ∧ decodeWord 0b1111001000001010#16 = .ok (.ldVxK 2) ∧
    decodeWord 0b1111010000010101#16 = .ok (.ldDtVx 4) ∧ decodeWord 0b1111010100011000#16 = .ok (.ldStVx 5) ∧
    decodeWord 0b1111011000011110#16 = .ok (.addI 6) ∧ decodeWord 0b1111011100101001#16 = .ok (.ldF 7) ∧
    decodeWord 0b1111100000110011#16 = .ok (.ldB 8) ∧ decodeWord 0b1111100101010101#16 = .ok (.ldMemVx 9) ∧
    decodeWord 0b1111101001100101#16 = .ok (.ldVxMem 10) := by decide

/-- L2-DEC-1, L2-SKIP-13, L2-SKIP-14, L2-ALU-38. -/
theorem test_decode_rejects_illegal_words :
    ([0xF108, 0xF000, 0xF0FF, 0xE000, 0x5001, 0x9001, 0x8008, 0x800F, 0x5121, 0x912F, 0x8018, 0xE39F] : List Word).all
      (fun w => decodeWord w == .error (.unsupportedOpcode w)) = true := by decide

/-- High byte first (R57, R58), the rest left over, and too few bytes rejected. -/
theorem test_decodeBytes_is_big_endian :
    decodeBytes [0xAB, 0xCD, 0x00] = .ok (.ldI 0xBCD, [0x00]) ∧ decodeBytes [0xAB] = .error .truncated := by decide

theorem test_decodeTableWord : decodeTableWord 16 0xABCD = some (.ldI 0xBCD) ∧ decodeTableWord 16 0x5001 = none := by
  decide

/-- The table of the decoder has the rows of spec/opcode_table.json: 35, all named differently (R2, R74). -/
theorem test_opcodeTable_has_35_rows :
    opcodeTable.length = 35 ∧ (opcodeTable.map (fun r => r.mnemonic)).Nodup := by decide

/-- Each row's word, built from its match bits alone, is read as an instruction of the row's own name. -/
theorem test_opcodeTable_rows_build_their_own_instruction :
    opcodeTable.all (fun r => (r.build r.value).mnemonic == r.mnemonic) = true := by decide

/-! ## Control transfer -/

/-- L2-FLOW-1. -/
theorem test_ret_pops : (stepOn 0x00EE ((withStack 1 0x0202).setPc 0x020E)).map (fun t => (t.pc, t.sp)) =
    some (0x0202, 0) := by decide
/-- L2-FLOW-2. -/
theorem test_ret_underflow : (stepOn 0x00EE (State.reset.setPc 0x020E)).map (fun t => (t.pc, t.sp, t.status)) =
    some (0x020E, 0, .halted .stackUnderflow 0x020E (some 0x00EE)) := by decide
/-- L2-FLOW-5: `00E1` is no clear-screen. -/
theorem test_sys_is_no_op : (stepOn 0x00E1 (withPixels [(0, 0)] (State.reset.setPc 0x0300))).map
    (fun t => (t.pc, litCount t)) = some (0x0302, 1) := by decide
/-- L2-FLOW-6. -/
theorem test_sys_at_the_top : (stepOn 0x0FFF (State.reset.setPc 0x0FFE)).map (fun t => (t.pc, t.status)) =
    some (0x1000, .running) := by decide
/-- L2-FLOW-9. -/
theorem test_jp_odd : (stepOn 0x1003 State.reset).map (fun t => t.pc) = some 0x0003 := by decide
/-- L2-FLOW-10. -/
theorem test_call_last_entry : (stepOn 0x2ABC ((withStack 15 0x0202).setPc 0x0FFE)).map
    (fun t => (t.pc, t.sp, t.stackEntry 15, t.stackEntry 14)) = some (0x0ABC, 16, 0x1000, 0x0202) := by decide
/-- L2-FLOW-11. -/
theorem test_call_overflow : (stepOn 0x2ABC ((withStack 16 0x0202).setPc 0x0400)).map
    (fun t => (t.pc, t.sp, t.status)) = some (0x0400, 16, .halted .stackOverflow 0x0400 (some 0x2ABC)) := by decide
/-- L2-FLOW-13. -/
theorem test_jpV0_is_not_reduced : (stepOn 0xBFFF (withRegs [(0, 0xFF)] State.reset)).map (fun t => t.pc) =
    some 0x10FE := by decide
/-- L2-FLOW-14. -/
theorem test_jpV0_uses_V0 : (stepOn 0xB201 (withRegs [(0, 0xFF), (2, 0x55)] State.reset)).map (fun t => t.pc) =
    some 0x0300 := by decide

/-! ## Skips -/

/-- L2-SKIP-1, L2-SKIP-2. -/
theorem test_seImm : ([0x42, 0x43] : List Byte).map (fun b => (stepOn 0x3A42 (withRegs [(10, b)] State.reset)).map
    (fun t => t.pc)) = [some 0x0204, some 0x0202] := by decide
/-- L2-SKIP-3, L2-SKIP-4. -/
theorem test_sneImm : ([0x42, 0x43] : List Byte).map (fun b => (stepOn 0x4A42 (withRegs [(10, b)] State.reset)).map
    (fun t => t.pc)) = [some 0x0202, some 0x0204] := by decide
/-- L2-SKIP-5, L2-SKIP-6. -/
theorem test_seReg : ([7, 8] : List Byte).map (fun b => (stepOn 0x5120 (withRegs [(1, 7), (2, b)] State.reset)).map
    (fun t => t.pc)) = [some 0x0204, some 0x0202] := by decide
/-- L2-SKIP-8, L2-SKIP-9. -/
theorem test_sneReg : ([7, 8] : List Byte).map (fun b => (stepOn 0x9120 (withRegs [(1, 7), (2, b)] State.reset)).map
    (fun t => t.pc)) = [some 0x0202, some 0x0204] := by decide

/-! ## Load, arithmetic, logic, shift, random -/

/-- Register `r`, `VF` and `PC` after one step with these registers. -/
def alu (w : Nat) (r : RegIx) (l : List (RegIx × Byte)) : Option (Byte × Byte × Word) :=
  (stepOn w (withRegs l State.reset)).map fun t => (t.reg r, t.reg 15, t.pc)

/-- L2-ALU-1. -/
theorem test_ldImm : alu 0x6FAB 15 [] = some (0xAB, 0xAB, 0x0202) := by decide
/-- L2-ALU-2. -/
theorem test_addImm_no_carry : alu 0x7102 1 [(1, 0xFF), (15, 0x77)] = some (0x01, 0x77, 0x0202) := by decide
/-- L2-ALU-6. -/
theorem test_ldReg : alu 0x8010 0 [(1, 0x2A)] = some (0x2A, 0x00, 0x0202) := by decide
/-- L2-ALU-8. -/
theorem test_or : alu 0x8011 0 [(0, 0xF0), (1, 0x0F), (15, 0x55)] = some (0xFF, 0x55, 0x0202) := by decide
/-- L2-ALU-9. -/
theorem test_and : alu 0x8012 0 [(0, 0xF3), (1, 0x3C), (15, 0x55)] = some (0x30, 0x55, 0x0202) := by decide
/-- L2-ALU-10. -/
theorem test_xor : alu 0x8013 0 [(0, 0xFF), (1, 0x0F), (15, 0x55)] = some (0xF0, 0x55, 0x0202) := by decide
/-- L2-ALU-12. -/
theorem test_addReg_carry : alu 0x8014 0 [(0, 0xFF), (1, 0x01)] = some (0x00, 0x01, 0x0202) := by decide
/-- L2-ALU-16: the sum is lost, the carry stays. -/
theorem test_addReg_flag_last : alu 0x8F14 15 [(15, 0x10), (1, 0x02)] = some (0x00, 0x00, 0x0202) := by decide
/-- L2-ALU-20. -/
theorem test_sub_borrow : alu 0x8015 0 [(0, 3), (1, 5), (15, 1)] = some (0xFE, 0x00, 0x0202) := by decide
/-- L2-ALU-21. -/
theorem test_sub_equal : alu 0x8015 0 [(0, 7), (1, 7)] = some (0x00, 0x01, 0x0202) := by decide
/-- L2-ALU-27: `Y` is ignored. -/
theorem test_shr : alu 0x82A6 2 [(2, 0xFF), (10, 0x10)] = some (0x7F, 0x01, 0x0202) := by decide
/-- L2-ALU-29. -/
theorem test_shr_flag_last : alu 0x8F06 15 [(15, 0x04)] = some (0x00, 0x00, 0x0202) := by decide
/-- L2-ALU-31. -/
theorem test_subn_borrow : alu 0x8017 0 [(0, 5), (1, 3), (15, 1)] = some (0xFE, 0x00, 0x0202) := by decide
/-- L2-ALU-33: `Vy` is the old `VF`. -/
theorem test_subn_from_flag : alu 0x80F7 0 [(0, 1), (15, 0)] = some (0xFF, 0x00, 0x0202) := by decide
/-- L2-ALU-34. -/
theorem test_shl : alu 0x820E 2 [(2, 0x81)] = some (0x02, 0x01, 0x0202) := by decide
/-- L2-ALU-37. -/
theorem test_shl_flag_last : alu 0x8F0E 15 [(15, 0x7F)] = some (0x00, 0x00, 0x0202) := by decide
/-- L2-ALU-40, with the byte left free. -/
theorem test_rnd : (stepOn 0xC30F State.reset).map (fun t => (t.reg 3, t.rngDrawn)) =
    some (Config.randByte 0 &&& 0x0F, 1) := rfl
/-- L2-ALU-41: the byte is taken also when the mask is 0. -/
theorem test_rnd_zero_mask : (stepOn 0xC300 (withRegs [(3, 0x55)] State.reset)).map (fun t => (t.reg 3, t.rngDrawn)) =
    some (0x00, 1) := by
  show some (Config.randByte 0 &&& 0x00#8, 1) = some (0x00#8, 1)
  rw [BitVec.and_zero]

/-! ## Index register and memory transfer -/

/-- L2-MEM-2. -/
theorem test_ldI : (stepOn 0xAFFF State.reset).map (fun t => (t.i, t.pc)) = some (0x0FFF, 0x0202) := by decide
/-- L2-MEM-4. -/
theorem test_addI_wraps : (stepOn 0xF21E (withRegs [(2, 0x01), (15, 0x55)] (State.reset.setI 0x0FFF))).map
    (fun t => (t.i, t.reg 15)) = some (0x0000, 0x55) := by decide
/-- L2-MEM-7. -/
theorem test_ldF : (stepOn 0xF229 (withRegs [(2, 0x0A)] (State.reset.setI 0x0300))).map (fun t => t.i) =
    some 0x0032 := by decide
/-- L2-MEM-11. -/
theorem test_ldF_no_digit : (stepOn 0xF229 (withRegs [(2, 0x1A)] (State.reset.setI 0x0300))).map
    (fun t => (t.i, t.status)) = some (0x0300, .halted .outOfBounds 0x0200 (some 0xF229)) := by decide
/-- L2-MEM-17. -/
theorem test_ldB_top : (stepOn 0xF033 (withRegs [(0, 0x7B)] (State.reset.setI 0x0FFD))).map
    (fun t => t.mem.readRun 0x0FFD 3) = some [0x01, 0x02, 0x03] := by decide
/-- L2-MEM-19. -/
theorem test_ldB_font : (stepOn 0xF033 (withRegs [(0, 0x7B)] (State.reset.setI 0x004F))).map
    (fun t => (t.mem.readRun 0x004F 3, t.status)) =
      some ([0x80, 0x00, 0x00], .halted .outOfBounds 0x0200 (some 0xF033)) := by decide
/-- L2-MEM-24: no byte is stored, not even the one that would fit. -/
theorem test_ldMemVx_all_or_nothing : (stepOn 0xF155 (withRegs [(0, 0x11), (1, 0x22)] (State.reset.setI 0x0FFF))).map
    (fun t => (t.byteAt 0x0FFF, t.status)) = some (0x00, .halted .outOfBounds 0x0200 (some 0xF155)) := by decide
/-- L2-MEM-29: the stored word is the next one executed. -/
theorem test_ldMemVx_writes_code : ((stepOn 0xF155 (withRegs [(0, 0x6A), (1, 0x55)] (State.reset.setI 0x0202))).bind
    (fun t => nextState? (step t))).map (fun t => (t.reg 10, t.pc)) = some (0x55, 0x0204) := by decide
/-- L2-MEM-30. -/
theorem test_ldVxMem : (stepOn 0xF265 (withBytes 0x0300 [2, 3, 4, 5] (withRegs [(3, 0x77)] (State.reset.setI 0x0300)))).map
    (fun t => (t.reg 0, t.reg 2, t.reg 3, t.i)) = some (2, 4, 0x77, 0x0300) := by decide
/-- L2-MEM-33. -/
theorem test_ldVxMem_all_or_nothing : (stepOn 0xF165 (withRegs [(0, 7), (1, 8)] (State.reset.setI 0x0FFF))).map
    (fun t => (t.reg 0, t.reg 1, t.status)) = some (7, 8, .halted .outOfBounds 0x0200 (some 0xF165)) := by decide

/-! ## Framebuffer -/

/-- L2-DRW-0. -/
theorem test_cls : (stepOn 0x00E0 (withPixels [(0, 0), (63, 31), (10, 10)] (withRegs [(15, 0x55)] State.reset))).map
    (fun t => (litCount t, t.reg 15)) = some (0, 0x55) := by decide
/-- L2-DRW-2: wrap on both axes. -/
theorem test_drw_wraps :
    (stepOn 0xD012 (withBytes 0x0300 [0xFF, 0x81] (withRegs [(0, 62), (1, 31)] (State.reset.setI 0x0300)))).map
      (fun t => (litExactly [(62, 31), (63, 31), (0, 31), (1, 31), (2, 31), (3, 31), (4, 31), (5, 31), (62, 0), (5, 0)] t,
        t.reg 15)) = some (true, 0x00) := by decide
/-- L2-DRW-5: one pixel goes from set to clear. -/
theorem test_drw_collision :
    (stepOn 0xD011 (withPixels [(5, 3)] (withBytes 0x0300 [0xC0] (withRegs [(0, 5), (1, 3)] (State.reset.setI 0x0300))))).map
      (fun t => (litExactly [(6, 3)] t, t.reg 15)) = some (true, 0x01) := by decide

/-! ## Keypad and timers -/

/-- L2-KEY-8. -/
theorem test_skp_held : (stepOn 0xE09E (withKeys [15] [15] (withRegs [(0, 0x0F)] State.reset))).map (fun t => t.pc) =
    some 0x0204 := by decide
/-- L2-KEY-5: a raising step does not sample the keys. -/
theorem test_skp_no_key : (stepOn 0xE39E (withKeys [0] [] (withRegs [(3, 0x10)] State.reset))).map
    (fun t => (t.status, t.keyPrev 0)) = some (.halted .outOfBounds 0x0200 (some 0xE39E), false) := by decide
/-- L2-KEY-3. -/
theorem test_sknp : (stepOn 0xE3A1 (withRegs [(3, 5)] State.reset)).map (fun t => t.pc) = some 0x0204 := by decide
/-- L2-KEY-4. -/
theorem test_sknp_down : (stepOn 0xE3A1 (withKeys [5] [] (withRegs [(3, 5)] State.reset))).map
    (fun t => (t.pc, t.keyPrev 5)) = some (0x0202, true) := by decide
/-- L2-KEY-12: the lowest new key, not the held one. -/
theorem test_ldVxK_lowest : (stepOn 0xF20A (withKeys [3, 9, 12] [3] State.reset)).map
    (fun t => (t.reg 2, t.pc, t.keysPrev == t.keys)) = some (0x09, 0x0202, true) := by decide
/-- L2-KEY-14: a release is no press, and is sampled. -/
theorem test_ldVxK_waits : (stepOn 0xF20A (withKeys [] [7] (withRegs [(2, 0x33)] State.reset))).map
    (fun t => (t.reg 2, t.pc, t.keyPrev 7)) = some (0x33, 0x0200, false) := by decide
/-- L2-TMR-1. -/
theorem test_ldVxDt : (stepOn 0xF107 (State.reset.setDt 0x3C)).map (fun t => (t.reg 1, t.dt, t.pc)) =
    some (0x3C, 0x3C, 0x0202) := by decide
/-- L2-TMR-2. -/
theorem test_ldDtVx : (stepOn 0xF015 (withRegs [(0, 0x0A)] (State.reset.setDt 0x55))).map (fun t => (t.dt, t.pc)) =
    some (0x0A, 0x0202) := by decide
/-- L2-TMR-3. -/
theorem test_ldStVx : (stepOn 0xF018 (withRegs [(0, 0x02)] State.reset)).map (fun t => (t.st, t.soundActive, t.pc)) =
    some (0x02, true, 0x0202) := by decide

/-! ## Fetch, errors, events -/

/-- L2-FET-1. -/
theorem test_fetch_out_of_bounds : (nextState? (step (State.reset.setPc 0x0FFF))).map (fun t => t.status) =
    some (.halted .outOfBounds 0x0FFF none) := by decide
/-- L2-FET-4. -/
theorem test_fetch_odd : (nextState? (step (withBytes 0x0200 [0x00, 0x6A, 0x55] (State.reset.setPc 0x0201)))).map
    (fun t => (t.reg 10, t.pc)) = some (0x55, 0x0203) := by decide
/-- L2-FET-6: the font bytes 20 60 are a call. -/
theorem test_fetch_font : (nextState? (step (State.reset.setPc 0x0005))).map (fun t => (t.pc, t.sp, t.stackEntry 0)) =
    some (0x0060, 1, 0x0007) := by decide
/-- L1-7. -/
theorem test_unsupported_opcode : (stepOn 0x5001 (withKeys [1] [] State.reset)).map
    (fun t => (t.status, t.pc, t.keyPrev 1)) =
      some (.halted .unsupportedOpcode 0x0200 (some 0x5001), 0x0200, false) := by decide
/-- L2-TMR-5, L2-TMR-6, L2-TMR-7. -/
theorem test_tick : (tick (State.reset.setDt 2)).dt = 1 ∧ (tick (State.reset.setDt 2)).st = 0 ∧
    (tick (State.reset.setSt 1)).soundActive = false ∧ (tick (halted.setDt 5)).dt = 5 := by decide
/-- L2-TMR-8. -/
theorem test_keySet : (keySet 3 true State.reset).key 3 = true ∧ (keySet 3 true State.reset).keyPrev 3 = false := by
  decide
/-- R64: the image from 0x200 on; L2-ERR-1: none on a halted core. -/
theorem test_loadProgram : (loadProgram [0x12, 0x00] State.reset).mem.readRun 0x01FF 3 = [0x00, 0x12, 0x00] ∧
    loadProgram [0x12, 0x00] halted = halted := by decide
/-- L2-LD-2, by the length alone: 3585 bytes are one too many. -/
theorem test_loadProgram_too_long (bytes : List Byte) (h : bytes.length = 3585) :
    loadProgram bytes State.reset = State.reset.setStatus (.halted .outOfBounds 0x0200 none) := by
  simp [loadProgram, State.isRunning, State.reset, Config.maxProgram, h]
/-- L2-ERR-2. -/
theorem test_reset_after_halt : resetCore halted = State.reset := by decide
/-- R256 with two cycles a tick: the two steps of `6003 F015`, then the tick (P5, rows 2 to 4). -/
theorem test_runFrame : (nextState? (runFrame 2 [(10, true)] (boot [0x60, 0x03, 0xF0, 0x15]))).map
    (fun t => (t.dt, t.pc, t.keyPrev 10)) = some (2, 0x0204, true) := by decide
/-- Memory stays canonical: writing a byte's reset value leaves it unlisted. -/
theorem test_memory_canonical : ((Memory.write [] 0x300 0x12).write 0x250 0x34).write 0x300 0x00 = [(0x250, 0x34)] := by
  decide

/-! ## Witnesses: the hypotheses of the obligations can be met, clause by clause and at the ends of their ranges -/

/-- The state about to run `w`. -/
def at_ (w : Nat) : State := State.reset.withFetchWord 16 w

theorem witness_EncodeThenDecode : (Instr.sys 0x0DF).wellFormed = true ∧ (Instr.drw 15 0 15).wellFormed = true := by
  decide

theorem witness_DecodeThenEncode : decodeWord 0x8AB6 = .ok (.shr 10 11) := by decide

/-- The fields that the clauses about words name, on one word of each family they name. -/
theorem witness_word_clauses :
    fieldOp 0x00E1 = 0x0 ∧ (0x00E1 : Word) ≠ 0x00E0#16 ∧ (0x00E1 : Word) ≠ 0x00EE#16 ∧ fieldOp 0x1FFF = 0x1 ∧
    fieldOp 0x2000 = 0x2 ∧ fieldOp 0x3A42 = 0x3 ∧ fieldOp 0x4A42 = 0x4 ∧ fieldOp 0x5120 = 0x5 ∧ fieldN 0x5120 = 0x0 ∧
    fieldN 0x5121 ≠ 0x0 ∧ fieldOp 0x7102 = 0x7 ∧ fieldOp 0x8F14 = 0x8 ∧ fieldN 0x8F14 = 0x4 ∧ fieldN 0x8015 = 0x5 ∧
    fieldN 0x82A6 = 0x6 ∧ fieldN 0x8017 = 0x7 ∧ fieldN 0x820E = 0xE ∧ fieldOp 0x912F = 0x9 ∧ fieldN 0x912F ≠ 0x0 ∧
    fieldN 0x9120 = 0x0 ∧ fieldOp 0xAFFF = 0xA ∧ fieldOp 0xF107 = 0xF ∧ fieldNN 0xF107 = 0x07 ∧ fieldNN 0xF015 = 0x15 ∧
    fieldNN 0xF018 = 0x18 := by decide

/-- One word of each family of the table, and their legal neighbours. -/
theorem witness_IllegalWord :
    IllegalWord 0x5001 ∧ IllegalWord 0x8008 ∧ IllegalWord 0x800F ∧ IllegalWord 0x9001 ∧ IllegalWord 0xE09D ∧
    IllegalWord 0xF0FF ∧ ¬ IllegalWord 0x0000 ∧ ¬ IllegalWord 0x5000 ∧ ¬ IllegalWord 0x8007 ∧ ¬ IllegalWord 0x800E ∧
    ¬ IllegalWord 0xE09E ∧ ¬ IllegalWord 0xF065 := by
  and_intros <;> (unfold IllegalWord; decide)

theorem witness_OpcodeRowsOverlap : ∃ r ∈ opcodeTable, ∃ q ∈ opcodeTable, (0x00E0#16) &&& r.mask = r.value ∧
    (0x00E0#16) &&& q.mask = q.value ∧ r.mnemonic ≠ q.mnemonic :=
  ⟨opcodeRows0to5[0], by simp [opcodeTable, opcodeRows0to5], opcodeRows0to5[2], by simp [opcodeTable, opcodeRows0to5],
    by decide⟩

theorem witness_StepRuns : (at_ 0x6A42).status = .running ∧ (at_ 0x6A42).pc.toNat ≤ 0x0FFE ∧
    decodeBytes [(at_ 0x6A42).byteAt (at_ 0x6A42).pc.toNat, (at_ 0x6A42).byteAt ((at_ 0x6A42).pc.toNat + 1)] =
      .ok (.ldImm 10 0x42, []) := by decide

/-- The last address an instruction can be fetched from. -/
theorem witness_StepRuns_top : (State.reset.setPc 0x0FFE).status = .running ∧ (State.reset.setPc 0x0FFE).pc.toNat ≤ 0x0FFE ∧
    decodeBytes [(State.reset.setPc 0x0FFE).byteAt 0x0FFE, (State.reset.setPc 0x0FFE).byteAt 0x0FFF] =
      .ok (.sys 0x000, []) := by decide

theorem witness_Fetch : 0x0FFE ≤ 0x0FFE ∧ (State.reset.setPc 0x0FFF).status = .running ∧
    0x0FFE < (State.reset.setPc 0x0FFF).pc.toNat := by decide

theorem witness_IllegalWordHalts : (at_ 0x5001).status = .running ∧ (at_ 0x5001).fetch = some 0x5001 ∧
    IllegalWord 0x5001 := by unfold IllegalWord; decide

/-- For `FatalErrorChangesOnlyStatus` and `ErrorReportNamesTheFailingInstruction`: an instruction's own error, an illegal
word, and a fetch that fails. -/
theorem witness_FatalError :
    (∃ s t, s.status = .running ∧ step s = .next t ∧ t.status = .halted .stackUnderflow 0x0200 (some 0x00EE)) ∧
    (∃ s t, s.status = .running ∧ step s = .next t ∧ t.status = .halted .unsupportedOpcode 0x0200 (some 0x5001)) ∧
    (∃ s t, s.status = .running ∧ step s = .next t ∧ t.status = .halted .outOfBounds 0x1000 none) :=
  ⟨⟨at_ 0x00EE, _, rfl, rfl, by decide⟩, ⟨at_ 0x5001, _, rfl, rfl, by decide⟩,
    ⟨State.reset.setPc 0x1000, _, rfl, rfl, by decide⟩⟩

/-- Every kind of error of an instruction's own rule at the edge of its condition, and just inside it. -/
theorem witness_fatalCause :
    fatalCause .ret (withStack 0 0) = some .stackUnderflow ∧ fatalCause .ret (withStack 1 0) = none ∧
    fatalCause (.call 0) (withStack 16 0) = some .stackOverflow ∧ fatalCause (.call 0) (withStack 15 0) = none ∧
    fatalCause (.drw 0 0 15) (State.reset.setI 0x0FF2) = some .outOfBounds ∧
    fatalCause (.drw 0 0 15) (State.reset.setI 0x0FF1) = none ∧ fatalCause (.drw 0 0 0) (State.reset.setI 0x0FFF) = none ∧
    fatalCause (.ldB 0) (State.reset.setI 0x0FFE) = some .outOfBounds ∧
    fatalCause (.ldB 0) (State.reset.setI 0x0FFD) = none ∧
    fatalCause (.ldMemVx 15) (State.reset.setI 0x004F) = some .outOfBounds ∧
    fatalCause (.ldMemVx 15) (State.reset.setI 0x0050) = none ∧
    fatalCause (.ldVxMem 15) (State.reset.setI 0x0FF1) = some .outOfBounds ∧
    fatalCause (.ldVxMem 15) (State.reset.setI 0x0FF0) = none ∧
    fatalCause (.ldF 1) (withRegs [(1, 0x10)] State.reset) = some .outOfBounds ∧
    fatalCause (.skp 1) (withRegs [(1, 0x0F)] State.reset) = none := by decide

theorem witness_HaltedCoreIsFrozen : halted.status ≠ .running ∧ Event.step ≠ .reset ∧ Event.tick ≠ .reset := by decide

/-- A step that completes, and one that raises. -/
theorem witness_CompletedCycle :
    (∃ t, (at_ 0x00E0).status = .running ∧ step (at_ 0x00E0) = .next t ∧ t.status = .running) ∧
    (∃ t, (at_ 0x00EE).status = .running ∧ step (at_ 0x00EE) = .next t ∧ t.status ≠ .running) :=
  ⟨⟨_, rfl, rfl, by decide⟩, ⟨_, rfl, rfl, by decide⟩⟩

/-- A state with a call made and its code in memory meets the invariant, and its step answers. -/
theorem witness_StepKeepsTheInvariant : Inv ((withStack 1 0x1000).withFetchWord 16 0x00EE) ∧
    ∃ t, step ((withStack 1 0x1000).withFetchWord 16 0x00EE) = .next t :=
  ⟨⟨by decide, by decide, by decide, by decide, by decide⟩, next_of_isSome (by decide)⟩

/-- For `EveryEventKeepsTheInvariant`, whose steps `witness_StepKeepsTheInvariant` meets: an event of the environment,
from a halted state. -/
theorem witness_EveryEventKeepsTheInvariant : Inv (halted.setI 0x0FFF) ∧
    ∃ t, Event.reset.apply (halted.setI 0x0FFF) = .next t :=
  ⟨⟨by decide, by decide, by decide, by decide, by decide⟩, ⟨_, rfl⟩⟩

theorem witness_Reachable : Reachable (keySet 3 true (boot [0x00, 0xE0])) :=
  .event (.keySet 3 true) (.event (.loadProgram [0x00, 0xE0]) .reset rfl) rfl

theorem witness_FontRegion : (∃ t, Event.step.apply (at_ 0x00E0) = .next t ∧ Event.step ≠ .reset) ∧
    ∃ t, Event.reset.apply halted = .next t := ⟨⟨_, rfl, by decide⟩, ⟨_, rfl⟩⟩

theorem witness_InstructionsWrite : ∃ t, fatalCause (.addReg 15 1) State.reset = none ∧
    exec (.addReg 15 1) State.reset = .next t := ⟨_, rfl, rfl⟩

theorem witness_SoundTimer : ∃ t, step (at_ 0xF018) = .next t := ⟨_, rfl⟩

theorem witness_OnlyRandom : ∃ t, (∀ (x : RegIx) (nn : Byte), Instr.addReg 0 1 ≠ .rnd x nn) ∧
    exec (.addReg 0 1) State.reset = .next t := ⟨_, fun _ _ h => Instr.noConfusion h, rfl⟩

/-- One entry in use, all 15 others different. -/
theorem witness_StaleStack : (∀ k : Fin 16, k.val < (withStack 1 0x0202).sp.val →
      ((Vector.replicate 16 (0xFFFF : Word)).set 0 0x0202)[k.val] = (withStack 1 0x0202).stackEntry k) ∧
    ∃ t, step (withStack 1 0x0202) = .next t := ⟨by decide, next_of_isSome (by decide)⟩

theorem witness_Call : (withStack 15 0).sp.val < 16 ∧ (withStack 16 0).sp.val = 16 := by decide

theorem witness_Return : (withStack 16 0).sp.val = (15 : Fin 16).val + 1 ∧ (withStack 1 0).sp.val = (0 : Fin 16).val + 1 ∧
    (withStack 0 0).sp.val = 0 := by decide

/-- The callee has moved `PC`; only the stack counts. -/
theorem witness_ReturnComesBack : ∃ t u : State, (withStack 15 0).sp.val < 16 ∧
    exec (.call 0x300) (withStack 15 0) = .next t ∧ u.sp = t.sp ∧
    (∀ k : Fin 16, u.stackEntry k = t.stackEntry k) ∧ u.pc ≠ t.pc := by
  refine ⟨_, { State.reset with stack := (Vector.replicate 16 0).set 15 0x0202, sp := 16, pc := 0x0400 },
    by decide, rfl, by decide, by decide, by decide⟩

theorem witness_CompareSkips : State.reset.reg 3 = 0x00 ∧ State.reset.reg 3 ≠ 0x01 ∧ State.reset.reg 3 = State.reset.reg 4 ∧
    (withRegs [(3, 1)] State.reset).reg 3 ≠ (withRegs [(3, 1)] State.reset).reg 4 := by decide

/-- A sum of 256 and one of 255, into `V0` and into `VF`. -/
theorem witness_AddRegisters : (0 : RegIx) ≠ 15 ∧
    255 < ((withRegs [(0, 0xFF), (1, 1)] State.reset).reg 0).toNat + ((withRegs [(0, 0xFF), (1, 1)] State.reset).reg 1).toNat ∧
    ((withRegs [(0, 0xFF)] State.reset).reg 0).toNat + ((withRegs [(0, 0xFF)] State.reset).reg 1).toNat ≤ 255 := by decide

theorem witness_Subtractions : (0 : RegIx) ≠ 15 ∧ (State.reset.reg 1).toNat ≤ (State.reset.reg 0).toNat ∧
    ((withRegs [(1, 1)] State.reset).reg 0).toNat < ((withRegs [(1, 1)] State.reset).reg 1).toNat := by decide

theorem witness_RandomByte : (0x0F : Byte).getLsbD 4 = false ∧ (0x0F : Byte).getLsbD 3 = true := by decide

theorem witness_FontLookup : ((withRegs [(2, 0x0F)] State.reset).reg 2).toNat ≤ 0x0F ∧
    0x0F < ((withRegs [(2, 0x10)] State.reset).reg 2).toNat := by decide

/-- The lowest and the highest `I` of `FX33`. -/
theorem witness_DecimalDigits :
    (0x0050 ≤ baseOf (State.reset.setI 0x0050).i ∧ baseOf (State.reset.setI 0x0050).i ≤ 0x0FFD) ∧
    (0x0050 ≤ baseOf (State.reset.setI 0x0FFD).i ∧ baseOf (State.reset.setI 0x0FFD).i ≤ 0x0FFD) := by decide

/-- For the three statements about `FX55`: both ends of the range, for all registers and for one. -/
theorem witness_StoreRegisters :
    (0x0050 ≤ baseOf (State.reset.setI 0x0050).i ∧ baseOf (State.reset.setI 0x0050).i + (15 : RegIx).val ≤ 0x0FFF) ∧
    (0x0050 ≤ baseOf (State.reset.setI 0x0FF0).i ∧ baseOf (State.reset.setI 0x0FF0).i + (15 : RegIx).val ≤ 0x0FFF) ∧
    (0x0050 ≤ baseOf (State.reset.setI 0x0FFF).i ∧ baseOf (State.reset.setI 0x0FFF).i + (0 : RegIx).val ≤ 0x0FFF) := by
  decide

theorem witness_LoadRegisters :
    baseOf (State.reset.setI 0x0000).i + (15 : RegIx).val ≤ 0x0FFF ∧
    baseOf (State.reset.setI 0x0FF0).i + (15 : RegIx).val ≤ 0x0FFF ∧
    baseOf (State.reset.setI 0x0FFF).i + (0 : RegIx).val ≤ 0x0FFF := by decide

theorem witness_StoredBytesAreFetched : ∃ t u : State, exec (.ldMemVx 1) (State.reset.setI 0x0FFE) = .next t ∧
    0x0050 ≤ baseOf (State.reset.setI 0x0FFE).i ∧ baseOf (State.reset.setI 0x0FFE).i + (1 : RegIx).val ≤ 0x0FFF ∧
    (0 : RegIx).val + 1 = (1 : RegIx).val ∧ (1 : RegIx) ≤ 1 ∧ u.mem = t.mem ∧
    u.pc.toNat = baseOf (State.reset.setI 0x0FFE).i + (0 : RegIx).val :=
  ⟨_, (State.reset.setPc 0x0FFE), rfl, by decide⟩

/-- For both statements about `DXYN`: no row, one row at the last byte, fifteen rows at the last start. -/
theorem witness_Draw : (1 : RegIx) ≠ 15 ∧
    ((0 : Nibble) = 0 ∨ baseOf (State.reset.setI 0x0FFF).i + (0 : Nibble).toNat ≤ 0x1000) ∧
    ((1 : Nibble) = 0 ∨ baseOf (State.reset.setI 0x0FFF).i + (1 : Nibble).toNat ≤ 0x1000) ∧
    ((15 : Nibble) = 0 ∨ baseOf (State.reset.setI 0x0FF1).i + (15 : Nibble).toNat ≤ 0x1000) := by decide

/-- A pixel under the sprite that is set (the collision), one that is clear, and a sprite that meets none. -/
theorem witness_Draw_collision :
    (underSprite State.reset 5 3 5 5 3 = true ∧ (withPixels [(5, 3)] State.reset).fb.pixel 5 3 = true) ∧
    State.reset.fb.pixel 5 3 = false ∧
    ¬ ∃ (px : Col) (py : Row), underSprite State.reset 5 3 5 px py = true ∧ State.reset.fb.pixel px py = true := by
  refine ⟨by decide, by decide, ?_⟩
  rintro ⟨px, py, -, h⟩
  simp [State.reset, Framebuffer.pixel] at h

/-- No pixel under a sprite of no rows is clear: the second draw reports no collision. -/
theorem witness_Draw_twice_no_collision :
    ¬ ∃ (px : Col) (py : Row), underSprite State.reset 5 3 0 px py = true ∧ State.reset.fb.pixel px py = false := by
  rintro ⟨px, py, h, -⟩
  simp [underSprite] at h

theorem witness_KeySkips : ((withRegs [(3, 0x0F)] State.reset).reg 3).toNat = (15 : KeyIx).val ∧
    (withKeys [15] [] State.reset).key 15 = true ∧ State.reset.key 15 = false ∧
    0x0F < ((withRegs [(3, 0x10)] State.reset).reg 3).toNat := by decide

/-- A new key above a held one; and no new key though one is held. -/
theorem witness_WaitForKey : (withKeys [3, 9] [3] State.reset).key 9 = true ∧
    (withKeys [3, 9] [3] State.reset).keyPrev 9 = false ∧
    (∀ j : KeyIx, j < 9 → (withKeys [3, 9] [3] State.reset).key j = true → (withKeys [3, 9] [3] State.reset).keyPrev j = true) ∧
    (∀ k : KeyIx, (withKeys [3] [3] State.reset).key k = true → (withKeys [3] [3] State.reset).keyPrev k = true) := by decide

/-- For `TickCountsDownEachTimer`, `TimersReachZeroAndStay` and `KeyEventWritesOneKey`. -/
theorem witness_Timers : (State.reset.setDt 0xFF).status = .running ∧ (State.reset.setDt 0xFF).dt ≠ 0 ∧
    (State.reset.setDt 0xFF).st = 0 ∧ (State.reset.setSt 1).st ≠ 0 ∧ (State.reset.setSt 1).dt = 0 := by decide

/-- The longest image that fits, and one byte more. -/
theorem witness_ProgramLoad : State.reset.status = .running ∧ (List.replicate 3584 (0xAA : Byte)).length ≤ 3584 ∧
    3584 < (List.replicate 3585 (0xAA : Byte)).length ∧ 3583 < (List.replicate 3584 (0xAA : Byte)).length := by
  simp only [List.length_replicate]; decide

theorem witness_Schedule : ∃ t, runSchedule 2 [[(10, true)], [(4, false)]] (boot [0x60, 0x03]) = .next t :=
  next_of_isSome (by decide)

end Sys2Proof.Tests
end

section
/-!
PROOFS. Frames, and the proofs of the statements about the scope of the events and of the random generator
(spec/00_scope.md).
-/

namespace Sys2Proof.Safety

open Sys2Proof.Machine

/-! ## Frames compose -/

theorem SameExcept.refl (ps : List Piece) (s : State) : SameExcept ps s s := by
  intro p _
  cases p <;> simp [Piece.same]

theorem Piece.same_trans {p : Piece} {s t u : State} (hst : p.same s t) (htu : p.same t u) : p.same s u := by
  cases p with
  | stack => exact ⟨htu.1.trans hst.1, fun k => (htu.2 k).trans (hst.2 k)⟩
  | screen => exact fun x y => (htu x y).trans (hst x y)
  | keys | keysPrev | memory => exact fun k => (htu k).trans (hst k)
  | index | delay | sound | status | random => exact Eq.trans htu hst

/-- `t` differs from `s` at most in the pieces listed: the general registers and `PC` are the same. -/
def WritesOnly (ps : List Piece) (s t : State) : Prop :=
  SameExcept ps s t ∧ SameRegsExcept [] s t ∧ t.pc = s.pc

theorem WritesOnly.refl (ps : List Piece) (s : State) : WritesOnly ps s s :=
  ⟨SameExcept.refl ps s, fun _ _ => rfl, rfl⟩

theorem WritesOnly.mono {ps qs : List Piece} {s t : State} (h : WritesOnly ps s t) (hsub : ps ⊆ qs) :
    WritesOnly qs s t :=
  ⟨fun p hp => h.1 p (fun hps => hp (hsub hps)), h.2⟩

theorem WritesOnly.trans {ps : List Piece} {s t u : State} (hst : WritesOnly ps s t) (htu : WritesOnly ps t u) :
    WritesOnly ps s u := by
  obtain ⟨hpst, hrst, hcst⟩ := hst
  obtain ⟨hptu, hrtu, hctu⟩ := htu
  exact ⟨fun p hp => Piece.same_trans (hpst p hp) (hptu p hp), fun r hr => (hrtu r hr).trans (hrst r hr),
    hctu.trans hcst⟩

/-! ## What each single update writes -/

theorem writesOnly_setDt (s : State) (b : Byte) : WritesOnly [.delay] s (s.setDt b) := by
  refine ⟨fun p hp => ?_, fun _ _ => rfl, rfl⟩
  cases p with
  | delay => simp at hp
  | _ => simp [Piece.same]

theorem writesOnly_setSt (s : State) (b : Byte) : WritesOnly [.sound] s (s.setSt b) := by
  refine ⟨fun p hp => ?_, fun _ _ => rfl, rfl⟩
  cases p with
  | sound => simp at hp
  | _ => simp [Piece.same]

theorem writesOnly_setKeys (s : State) (ks : Vector Bool 16) : WritesOnly [.keys] s (s.setKeys ks) := by
  refine ⟨fun p hp => ?_, fun _ _ => rfl, rfl⟩
  cases p with
  | keys => simp at hp
  | _ => simp [Piece.same]

theorem writesOnly_setMem (s : State) (m : Memory) : WritesOnly [.memory] s (s.setMem m) := by
  refine ⟨fun p hp => ?_, fun _ _ => rfl, rfl⟩
  cases p with
  | memory => simp at hp
  | _ => simp [Piece.same]

theorem writesOnly_setStatus (s : State) (q : Status) : WritesOnly [.status] s (s.setStatus q) := by
  refine ⟨fun p hp => ?_, fun _ _ => rfl, rfl⟩
  cases p with
  | status => simp at hp
  | _ => simp [Piece.same]

/-! ## What each event of the environment writes -/

theorem writesOnly_tick (s : State) : WritesOnly [.delay, .sound] s (tick s) := by
  by_cases hr : s.status = .running
  · rw [tick_running hr]
    exact ((writesOnly_setDt s _).mono (by simp)).trans ((writesOnly_setSt _ _).mono (by simp))
  · rw [(events_halted hr).1]
    exact WritesOnly.refl _ s

theorem writesOnly_keySet (s : State) (k : KeyIx) (b : Bool) : WritesOnly [.keys] s (keySet k b s) := by
  by_cases hr : s.status = .running
  · rw [keySet_running hr]
    exact writesOnly_setKeys s _
  · rw [(events_halted hr).2.1]
    exact WritesOnly.refl _ s

/-- What a program load can do: nothing, a copy of an image that fits, or the failure of one that does not (R64). -/
theorem loadProgram_cases (bytes : List Byte) (s : State) :
    loadProgram bytes s = s ∨
    (bytes.length ≤ 3584 ∧ loadProgram bytes s = s.setMem (s.mem.writeRun 0x200 bytes)) ∨
    loadProgram bytes s = s.setStatus (.halted .outOfBounds 0x0200 none) := by
  by_cases hr : s.status = .running
  · by_cases hfit : bytes.length ≤ 3584
    · exact .inr (.inl ⟨hfit, loadProgram_fits hr hfit⟩)
    · exact .inr (.inr (loadProgram_too_long hr (by omega)))
  · exact .inl ((events_halted hr).2.2 bytes)

theorem writesOnly_loadProgram (s : State) (bytes : List Byte) :
    WritesOnly [.memory, .status] s (loadProgram bytes s) := by
  obtain h | ⟨-, h⟩ | h := loadProgram_cases bytes s <;> rw [h]
  · exact WritesOnly.refl _ s
  · exact (writesOnly_setMem s _).mono (by simp)
  · exact (writesOnly_setStatus s _).mono (by simp)

/-- A program load leaves every byte below 0x200, and reaches no address above 0xFFF: an image is at most 3584 bytes
(R64). -/
theorem loadProgram_byteAt_outside (s : State) (bytes : List Byte) {a : Nat} (ha : a < 0x200 ∨ 0x1000 ≤ a) :
    (loadProgram bytes s).byteAt a = s.byteAt a := by
  obtain h | ⟨hfit, h⟩ | h := loadProgram_cases bytes s <;> rw [h]
  · rw [State.setMem_byteAt, Memory.read_writeRun_outside bytes s.mem (by omega)]
    rfl
  · rw [State.setStatus_byteAt]

/-- A key after a key event on a running core (R13). -/
theorem keySet_key {s : State} (hr : s.status = .running) (k : KeyIx) (b : Bool) (j : KeyIx) :
    (keySet k b s).key j = if j = k then b else s.key j := by
  rw [keySet_running hr]
  simp only [State.key, State.setKeys_keys, Vector.getElem_set, Fin.ext_iff, eq_comm (a := k.val)]

/-- Settles O21: each event is one or two of the single updates, or nothing on a halted core. -/
theorem environmentEventsWriteOnlyTheirOwnState : Obligations.EnvironmentEventsWriteOnlyTheirOwnState := by
  refine ⟨writesOnly_tick, writesOnly_keySet, fun s bytes => ?_, fun _ => rfl⟩
  obtain ⟨hpieces, hregs, hpc⟩ := writesOnly_loadProgram s bytes
  exact ⟨hpieces, hregs, hpc, fun a ha => loadProgram_byteAt_outside s bytes ha⟩

/-- Settles O55: the key written is read back, and the rest is the frame of the event. -/
theorem keyEventWritesOneKey : Obligations.KeyEventWritesOneKey :=
  fun s k b hr => ⟨keySet_key hr k b, writesOnly_keySet s k b⟩

end Sys2Proof.Safety

namespace Sys2Proof.Machine

/-! ## The count of random bytes taken goes through every meaning but that of `CXNN` unchanged -/

/-- The state with `n` as the count of bytes taken from `RNG`. -/
def State.setDrawn (s : State) (n : Nat) : State := { s with rngDrawn := n }

/-- The answer with `n` as the count of bytes taken in its state. -/
def withDrawn (n : Nat) (r : StepResult) : StepResult := andThen r (fun t => .next (t.setDrawn n))

@[simp] theorem withDrawn_next (n : Nat) (t : State) : withDrawn n (.next t) = .next (t.setDrawn n) := rfl

/-! What a meaning reads of the state is not the count. -/

@[simp] theorem State.setDrawn_reg (s : State) (n : Nat) (r : RegIx) : (s.setDrawn n).reg r = s.reg r := rfl
@[simp] theorem State.setDrawn_v (s : State) (n : Nat) : (s.setDrawn n).v = s.v := rfl
@[simp] theorem State.setDrawn_i (s : State) (n : Nat) : (s.setDrawn n).i = s.i := rfl
@[simp] theorem State.setDrawn_pc (s : State) (n : Nat) : (s.setDrawn n).pc = s.pc := rfl
@[simp] theorem State.setDrawn_key (s : State) (n : Nat) (k : KeyIx) : (s.setDrawn n).key k = s.key k := rfl
@[simp] theorem State.setDrawn_newKey? (s : State) (n : Nat) : (s.setDrawn n).newKey? = s.newKey? := rfl
@[simp] theorem State.setDrawn_loadRun (s : State) (n a k : Nat) : (s.setDrawn n).loadRun a k = s.loadRun a k := rfl

/-! The operations with cases carry the count along. -/

@[simp] theorem State.setDrawn_skipIf (s : State) (n : Nat) (c : Bool) :
    (s.setDrawn n).skipIf c = (s.skipIf c).setDrawn n := by
  cases c <;> rfl

@[simp] theorem State.setDrawn_push (s : State) (n : Nat) (a : Word) :
    (s.setDrawn n).push a = (s.push a).map (fun t => t.setDrawn n) := by
  by_cases h : s.sp.val < 16 <;> simp [State.push, State.setDrawn, h]

@[simp] theorem State.setDrawn_pop (s : State) (n : Nat) :
    (s.setDrawn n).pop = s.pop.map (fun p => (p.1, p.2.setDrawn n)) := by
  by_cases h : 0 < s.sp.val <;> simp [State.pop, State.setDrawn, h]

@[simp] theorem State.setDrawn_storeRun (s : State) (n a : Nat) (bs : List Byte) :
    (s.setDrawn n).storeRun a bs = (s.storeRun a bs).map (fun t => t.setDrawn n) := by
  by_cases h : canWrite a bs.length <;> simp [State.storeRun, State.setDrawn, State.setMem, h]

/-- No meaning but that of `CXNN` reads the count, and each leaves the one it was given. The split inside a case is
on what the instruction's checked operation answers: an error or a value. -/
theorem exec_setDrawn {i : Instr} (hi : ∀ (x : RegIx) (nn : Byte), i ≠ .rnd x nn) (s : State) (n : Nat) :
    exec i (s.setDrawn n) = withDrawn n (exec i s) := by
  cases i with
  | rnd x nn => exact absurd rfl (hi x nn)
  | ret =>
    simp only [exec, execRet, State.setDrawn_pop]
    cases s.pop <;> rfl
  | call nnn =>
    simp only [exec, execCall, State.setDrawn_push, State.setDrawn_pc]
    cases s.push (s.pc + 2) <;> rfl
  | drw x y k =>
    simp only [exec, execDrw, State.setDrawn_i, State.setDrawn_loadRun]
    cases s.loadRun (baseOf s.i) k.toNat <;> rfl
  | ldVxMem x =>
    simp only [exec, execLdVxMem, State.setDrawn_i, State.setDrawn_loadRun]
    cases s.loadRun (baseOf s.i) (countTo x) <;> rfl
  | ldB x =>
    simp only [exec, execLdB, State.setDrawn_i, State.setDrawn_reg, State.setDrawn_storeRun]
    cases s.storeRun (baseOf s.i) (decimalDigits (s.reg x)) <;> rfl
  | ldMemVx x =>
    simp only [exec, execLdMemVx, State.setDrawn_i, State.setDrawn_v, State.setDrawn_storeRun]
    cases s.storeRun (baseOf s.i) (registersTo x s.v) <;> rfl
  | ldF x =>
    simp only [exec, execLdF, State.setDrawn_reg]
    cases tableIndex? (s.reg x) <;> rfl
  | skp x =>
    simp only [exec, execSkp, State.setDrawn_reg, State.setDrawn_key, State.setDrawn_skipIf]
    cases tableIndex? (s.reg x) <;> rfl
  | sknp x =>
    simp only [exec, execSknp, State.setDrawn_reg, State.setDrawn_key, State.setDrawn_skipIf]
    cases tableIndex? (s.reg x) <;> rfl
  | ldVxK x =>
    simp only [exec, execLdVxK, State.setDrawn_newKey?]
    cases s.newKey? <;> rfl
  | seImm | sneImm | seReg | sneReg => exact congrArg Host.Outcome.next (s.setDrawn_skipIf n _)
  | _ => rfl

/-- Settles O23: the meaning run with another count answers the same state with that count. -/
theorem onlyRandomReadsTheGenerator : Obligations.OnlyRandomReadsTheGenerator := by
  intro i s t n hi ht
  have h := exec_setDrawn hi s n
  rwa [ht, withDrawn_next] at h

end Sys2Proof.Machine
end

section
/-!
PROOFS. The checked instructions, each as one checked operation that raises or answers; shared by the proofs about
the invariant, about frames and about what no instruction observes.
-/

namespace Sys2Proof.Machine

/-- The answer of a checked instruction: its fatal error when the operation `o` answers nothing, and otherwise the
state made from what it answers. -/
def checked {α : Type} (o : Option α) (i : Instr) (kind : ErrorKind) (s : State) (f : α → State) : StepResult :=
  match o with
  | none => raiseIn i kind s
  | some a => .next (f a)

theorem exec_ret (s : State) : exec .ret s = checked s.pop .ret .stackUnderflow s (fun p => p.2.setPc p.1) := by
  simp only [exec, execRet]
  cases s.pop <;> rfl

theorem exec_call (nnn : Addr12) (s : State) : exec (.call nnn) s =
    checked (s.push (s.pc + 2)) (.call nnn) .stackOverflow s (fun t => t.setPc (target nnn)) := by
  simp only [exec, execCall]
  cases s.push (s.pc + 2) <;> rfl

/-- The state after `DXYN` of the sprite bytes `bs` (R152). -/
def State.drawn (s : State) (x y : RegIx) (bs : List Byte) : State :=
  let d := s.fb.draw (startCol (s.reg x)) (startRow (s.reg y)) bs
  ((s.setFb d.fb).setReg flagReg (flagByte d.collision)).advance

theorem exec_drw (x y : RegIx) (n : Nibble) (s : State) : exec (.drw x y n) s =
    checked (s.loadRun (baseOf s.i) n.toNat) (.drw x y n) .outOfBounds s (s.drawn x y) := by
  simp only [exec, execDrw]
  cases s.loadRun (baseOf s.i) n.toNat <;> rfl

theorem exec_ldF (x : RegIx) (s : State) : exec (.ldF x) s =
    checked (tableIndex? (s.reg x)) (.ldF x) .outOfBounds s (fun d => (s.setI (glyphAddress d)).advance) := by
  simp only [exec, execLdF]
  cases tableIndex? (s.reg x) <;> rfl

theorem exec_ldB (x : RegIx) (s : State) : exec (.ldB x) s =
    checked (s.storeRun (baseOf s.i) (decimalDigits (s.reg x))) (.ldB x) .outOfBounds s State.advance := by
  simp only [exec, execLdB]
  cases s.storeRun (baseOf s.i) (decimalDigits (s.reg x)) <;> rfl

theorem exec_ldMemVx (x : RegIx) (s : State) : exec (.ldMemVx x) s =
    checked (s.storeRun (baseOf s.i) (registersTo x s.v)) (.ldMemVx x) .outOfBounds s State.advance := by
  simp only [exec, execLdMemVx]
  cases s.storeRun (baseOf s.i) (registersTo x s.v) <;> rfl

theorem exec_ldVxMem (x : RegIx) (s : State) : exec (.ldVxMem x) s =
    checked (s.loadRun (baseOf s.i) (countTo x)) (.ldVxMem x) .outOfBounds s
      (fun bs => (s.setRegsFrom0 bs).advance) := by
  simp only [exec, execLdVxMem]
  cases s.loadRun (baseOf s.i) (countTo x) <;> rfl

theorem exec_skp (x : RegIx) (s : State) : exec (.skp x) s =
    checked (tableIndex? (s.reg x)) (.skp x) .outOfBounds s (fun k => s.skipIf (s.key k)) := by
  simp only [exec, execSkp]
  cases tableIndex? (s.reg x) <;> rfl

theorem exec_sknp (x : RegIx) (s : State) : exec (.sknp x) s =
    checked (tableIndex? (s.reg x)) (.sknp x) .outOfBounds s (fun k => s.skipIf (!s.key k)) := by
  simp only [exec, execSknp]
  cases tableIndex? (s.reg x) <;> rfl

/-- `FX0A` waits in place, or reports the key that went down (R163). -/
theorem exec_ldVxK (x : RegIx) (s : State) : exec (.ldVxK x) s =
    .next (s.newKey?.elim s (fun k => (s.setReg x (BitVec.ofNat 8 k.val)).advance)) := by
  simp only [exec, execLdVxK]
  cases s.newKey? <;> rfl

theorem State.fetch_bound {s : State} {w : Word} (h : s.fetch = some w) : s.pc.toNat ≤ 0x0FFE := by
  by_contra hpc
  have hnone : s.fetch = none := State.fetchAt_none.2 (by omega)
  rw [h] at hnone
  cases hnone

end Sys2Proof.Machine
end

section
/-!
PROOFS. The invariant (rule R36): each operation of a meaning keeps it, so each instruction, each step, each event
and each run does.
-/

namespace Sys2Proof.Safety

open Sys2Proof.Machine

/-! ## What each update needs to keep the invariant -/

/-- The invariant speaks of `MEM`, `I`, `PC` and the stack only. -/
theorem Inv.congr {s t : State} (h : Inv s) (hmem : t.mem = s.mem := by rfl) (hi : t.i = s.i := by rfl)
    (hpc : t.pc = s.pc := by rfl) (hstack : t.stack = s.stack := by rfl) (hsp : t.sp = s.sp := by rfl) : Inv t := by
  obtain ⟨hwf, hfont, hindex, hbound, hentries⟩ := h
  refine ⟨hmem ▸ hwf, fun a ha => ?_, hi ▸ hindex, hpc ▸ hbound, fun k hk => ?_⟩
  · rw [State.byteAt, hmem]
    exact hfont a ha
  · rw [State.stackEntry, hstack]
    exact hentries k (hsp ▸ hk)

theorem Inv.setPc {s : State} (h : Inv s) {a : Word} (ha : a.toNat ≤ 0x10FE) : Inv (s.setPc a) :=
  ⟨h.memWf, h.fontIntact, h.indexBound, ha, h.stackBound⟩

theorem Inv.setI {s : State} (h : Inv s) {a : Word} (ha : a.toNat ≤ 0x0FFF) : Inv (s.setI a) :=
  ⟨h.memWf, h.fontIntact, ha, h.pcBound, h.stackBound⟩

/-- A fetched instruction lies below 0x1000, so the address after it is at most 0x1000 (R26, R36 point 5). -/
theorem next_bound {a : Word} (ha : a.toNat ≤ 0x0FFE) : (a + 2).toNat ≤ 0x1000 := by
  rw [BitVec.toNat_add]
  exact (Nat.mod_le _ _).trans (Nat.add_le_add_right ha 2)

theorem Inv.advance {s : State} (h : Inv s) (hpc : s.pc.toNat ≤ 0x0FFE) : Inv s.advance :=
  h.setPc ((next_bound hpc).trans (by decide))

theorem Inv.skipIf {s : State} (h : Inv s) (hpc : s.pc.toNat ≤ 0x0FFE) (c : Bool) : Inv (s.skipIf c) := by
  rw [State.skipIf_eq]
  refine h.setPc ?_
  split
  · rw [BitVec.toNat_add]
    exact (Nat.mod_le _ _).trans ((Nat.add_le_add_right hpc 4).trans (by decide))
  · exact (next_bound hpc).trans (by decide)

/-- A run of bytes stored between the font and the end of memory keeps the font and the canonical form. -/
theorem Inv.writeRun {s : State} (h : Inv s) {a : Nat} {bs : List Byte} (hfont : 80 ≤ a)
    (hend : a + bs.length ≤ 4096) : Inv (s.setMem (s.mem.writeRun a bs)) := by
  refine ⟨Memory.wf_writeRun bs h.memWf hend, fun b hb => ?_, h.indexBound, h.pcBound, h.stackBound⟩
  rw [State.setMem_byteAt, Memory.read_writeRun_outside bs s.mem (.inl (Nat.lt_of_lt_of_le hb hfont))]
  exact h.fontIntact b hb

theorem Inv.storeRun_advance {s t : State} (h : Inv s) (hpc : s.pc.toNat ≤ 0x0FFE) {a : Nat} {bs : List Byte}
    (ht : s.storeRun a bs = some t) : Inv t.advance := by
  obtain ⟨⟨hfont, hend⟩, rfl⟩ := State.storeRun_some ht
  exact (h.writeRun hfont hend).advance hpc

theorem Inv.push {s t : State} (h : Inv s) {a : Word} (ha : a.toNat ≤ 0x1000) (ht : s.push a = some t) :
    Inv t := by
  obtain ⟨-, hsp, hentry, hrest⟩ := State.push_some ht
  rw [hrest]
  refine ⟨h.memWf, h.fontIntact, h.indexBound, h.pcBound, fun k hk => ?_⟩
  show (t.stackEntry k).toNat ≤ 0x1000
  rw [hentry]
  split
  · exact ha
  · exact h.stackBound k (by simp only at hk; omega)

theorem Inv.pop {s t : State} (h : Inv s) {a : Word} (ht : s.pop = some (a, t)) :
    Inv t ∧ a.toNat ≤ 0x1000 := by
  obtain ⟨k, hk, rfl, rfl⟩ := State.pop_some ht
  exact ⟨⟨h.memWf, h.fontIntact, h.indexBound, h.pcBound, fun j hj => h.stackBound j (by simp only at hj; omega)⟩,
    h.stackBound k (by omega)⟩

/-! ## The bounds of the operands -/

theorem target_bound (nnn : Addr12) : (target nnn).toNat ≤ 0x0FFF := by
  have := nnn.isLt
  simp [target, zext16]
  omega

/-- The highest jump target is 0xFF + 0xFFF (R26, R105). -/
theorem offsetTarget_bound (b : Byte) (nnn : Addr12) : (offsetTarget b nnn).toNat ≤ 0x10FE := by
  have := nnn.isLt
  have := b.isLt
  simp [offsetTarget, zext16]
  omega

theorem indexSum_bound (i : Word) (b : Byte) : (indexSum i b).toNat ≤ 0x0FFF := by
  rw [indexSum, BitVec.toNat_umod]
  exact Nat.le_of_lt_succ (Nat.mod_lt _ (by decide))

theorem glyphAddress_bound (d : Fin 16) : (glyphAddress d).toNat ≤ 0x0FFF := by
  have := d.isLt
  rw [glyphAddress, BitVec.toNat_ofNat]
  exact (Nat.mod_le _ _).trans (by omega)

/-! ## Instructions, steps, events, runs -/

/-- The answer is a next state that meets the invariant. -/
def AnswersInv (r : StepResult) : Prop := ∃ t, r = .next t ∧ Inv t

theorem Inv.answers {s : State} (h : Inv s) : AnswersInv (.next s) := ⟨s, rfl, h⟩

/-- A fatal error touches nothing the invariant speaks of (R205). -/
theorem Inv.checked {α : Type} {s : State} (h : Inv s) {o : Option α} (i : Instr) (kind : ErrorKind) {f : α → State}
    (hf : ∀ a, o = some a → Inv (f a)) : AnswersInv (checked o i kind s f) := by
  cases o with
  | none => exact h.congr.answers
  | some a => exact (hf a rfl).answers

/-- An instruction that was fetched keeps the invariant. -/
theorem exec_answersInv (i : Instr) {s : State} (h : Inv s) (hpc : s.pc.toNat ≤ 0x0FFE) : AnswersInv (exec i s) := by
  cases i with
  | ret =>
    rw [exec_ret]
    refine h.checked _ _ fun (a, t) ht => ?_
    obtain ⟨hinv, ha⟩ := h.pop ht
    exact hinv.setPc (ha.trans (by decide))
  | call nnn =>
    rw [exec_call]
    exact h.checked _ _ fun t ht => (h.push (next_bound hpc) ht).setPc ((target_bound nnn).trans (by decide))
  | jp nnn => exact (h.setPc ((target_bound nnn).trans (by decide))).answers
  | jpV0 nnn => exact (h.setPc (offsetTarget_bound _ nnn)).answers
  | ldI nnn => exact ((h.setI (target_bound nnn)).advance hpc).answers
  | addI x => exact ((h.setI (indexSum_bound _ _)).advance hpc).answers
  | ldF x =>
    rw [exec_ldF]
    exact h.checked _ _ fun d _ => (h.setI (glyphAddress_bound d)).advance hpc
  | ldB x =>
    rw [exec_ldB]
    exact h.checked _ _ fun t ht => h.storeRun_advance hpc ht
  | ldMemVx x =>
    rw [exec_ldMemVx]
    exact h.checked _ _ fun t ht => h.storeRun_advance hpc ht
  | ldVxMem x =>
    rw [exec_ldVxMem]
    exact h.checked _ _ fun bs _ => h.congr.advance hpc
  | drw x y n =>
    rw [exec_drw]
    exact h.checked _ _ fun bs _ => h.congr.advance hpc
  | skp x =>
    rw [exec_skp]
    exact h.checked _ _ fun k _ => h.skipIf hpc _
  | sknp x =>
    rw [exec_sknp]
    exact h.checked _ _ fun k _ => h.skipIf hpc _
  | ldVxK x =>
    rw [exec_ldVxK]
    cases s.newKey? with
    | none => exact h.answers
    | some k => exact Inv.answers (.advance (.congr h) hpc)
  | seImm | sneImm | seReg | sneReg => exact (h.skipIf hpc _).answers
  | _ => exact Inv.answers (.advance (.congr h) hpc)

theorem Inv.sampleKeys {t : State} (h : Inv t) : Inv (sampleKeys t) := by
  by_cases hr : t.status = .running
  · rw [sampleKeys_running hr]
    exact h.congr
  · rwa [sampleKeys_halted hr]

/-- Only a step that runs an instruction touches what the invariant speaks of, and a fetched instruction keeps it. -/
theorem step_answersInv {s : State} (h : Inv s) : AnswersInv (step s) := by
  obtain ⟨-, hs⟩ | ⟨-, -, hs⟩ | ⟨w, e, -, -, -, hs⟩ | ⟨w, i, -, hw, -, hs⟩ := step_cases s <;> rw [hs]
  · exact h.answers
  · exact h.congr.answers
  · exact h.congr.answers
  · obtain ⟨t, ht, hinv⟩ := exec_answersInv i h (State.fetch_bound hw)
    rw [ht]
    exact hinv.sampleKeys.answers

theorem Inv.of_answer {r : StepResult} {t : State} (hr : AnswersInv r) (ht : r = .next t) : Inv t := by
  obtain ⟨u, hu, hinv⟩ := hr
  cases hu.symm.trans ht
  exact hinv

/-- Settles O17: by cases on the step, and for a completed one on the instruction. -/
theorem stepKeepsTheInvariant : Obligations.StepKeepsTheInvariant :=
  fun _ _ h ht => Inv.of_answer (step_answersInv h) ht

/-- Settles O16: no byte is listed, no entry is in use. -/
theorem invariantHoldsAtReset : Obligations.InvariantHoldsAtReset :=
  ⟨Memory.wf_nil, fun _ _ => rfl, by decide, by decide, fun _ hk => absurd hk (Nat.not_lt_zero _)⟩

theorem Inv.loadProgram {s : State} (h : Inv s) (bytes : List Byte) : Inv (loadProgram bytes s) := by
  obtain hs | ⟨hfit, hs⟩ | hs := loadProgram_cases bytes s <;> rw [hs]
  · exact h
  · exact h.writeRun (by decide) (by omega)
  · exact h.congr

theorem Inv.tick {s : State} (h : Inv s) : Inv (tick s) := by
  by_cases hr : s.status = .running
  · rw [tick_running hr]
    exact h.congr
  · rwa [(events_halted hr).1]

theorem Inv.keySet {s : State} (h : Inv s) (k : KeyIx) (b : Bool) : Inv (keySet k b s) := by
  by_cases hr : s.status = .running
  · rw [keySet_running hr]
    exact h.congr
  · rwa [(events_halted hr).2.1]

theorem event_answersInv {s : State} (h : Inv s) (e : Event) : AnswersInv (e.apply s) := by
  cases e with
  | reset => exact (Inv.congr invariantHoldsAtReset).answers
  | loadProgram bytes => exact (h.loadProgram bytes).answers
  | step => exact step_answersInv h
  | tick => exact h.tick.answers
  | keySet k b => exact (h.keySet k b).answers
  | quit => exact h.answers

/-- Settles O59: by cases on the event. -/
theorem everyEventKeepsTheInvariant : Obligations.EveryEventKeepsTheInvariant :=
  fun _ _ e h ht => Inv.of_answer (event_answersInv h e) ht

/-- Settles O18: by induction on the run, with O16 at its start and O59 for each event. -/
theorem reachableStatesMeetTheInvariant : Obligations.ReachableStatesMeetTheInvariant := by
  intro s hs
  induction hs with
  | reset => exact invariantHoldsAtReset
  | event e _ ht ih => exact everyEventKeepsTheInvariant _ _ e ih ht

end Sys2Proof.Safety
end
section
/-!
PROOFS. What an instruction can do, said once: it raises the fatal error of its condition, or it completes and writes
only the registers and pieces its rules name (R22 to R31, R51, R201 to R205). From it, what a step can do.
-/

namespace Sys2Proof.Machine

/-! ## When a checked operation answers nothing -/

theorem State.pop_none {s : State} : s.pop = none ↔ s.sp.val = 0 := by
  refine ⟨fun h => ?_, State.pop_empty⟩
  by_contra hpos
  simp [State.pop, Nat.pos_of_ne_zero hpos] at h

theorem State.push_none {s : State} {a : Word} : s.push a = none ↔ s.sp.val = 16 := by
  refine ⟨fun h => ?_, State.push_full a⟩
  by_contra hfree
  obtain ⟨t, ht⟩ := State.push_isSome (s := s) a (by omega)
  rw [h] at ht
  cases ht

theorem State.length_of_loadRun {s : State} {a n : Nat} {bs : List Byte} (h : s.loadRun a n = some bs) :
    bs.length = n := by
  unfold State.loadRun at h
  split at h
  · obtain rfl := Option.some.inj h
    exact Memory.length_readRun s.mem a n
  · cases h

end Sys2Proof.Machine

namespace Sys2Proof.Safety

open Sys2Proof.Machine

/-! ## Writing only some registers and pieces -/

/-- `t` differs from `s` at most in the registers `rs`, the pieces `ps` and `PC`. -/
def Writes (rs : List RegIx) (ps : List Piece) (s t : State) : Prop :=
  SameRegsExcept rs s t ∧ SameExcept ps s t

section

variable {rs : List RegIx} {ps : List Piece} {s t u : State}

theorem Writes.refl (s : State) : Writes rs ps s s := ⟨fun _ _ => rfl, SameExcept.refl ps s⟩

theorem Writes.trans (hst : Writes rs ps s t) (htu : Writes rs ps t u) : Writes rs ps s u :=
  ⟨fun r hr => (htu.1 r hr).trans (hst.1 r hr), fun p hp => Piece.same_trans (hst.2 p hp) (htu.2 p hp)⟩

theorem WritesOnly.writes {qs : List Piece} (h : WritesOnly qs s t) (hsub : qs ⊆ ps) : Writes rs ps s t :=
  ⟨fun r _ => h.2.1 r (by simp), (h.mono hsub).1⟩

/-! ## Each update goes on from what was written before it -/

theorem Writes.setPc (h : Writes rs ps s t) (a : Word) : Writes rs ps s (t.setPc a) :=
  h.trans ⟨fun _ _ => rfl, fun p _ => by cases p <;> simp [Piece.same]⟩

theorem Writes.advance (h : Writes rs ps s t) : Writes rs ps s t.advance := h.setPc _

theorem Writes.skipIf (h : Writes rs ps s t) (c : Bool) : Writes rs ps s (t.skipIf c) := by
  rw [State.skipIf_eq]
  exact h.setPc _

theorem Writes.setReg (h : Writes rs ps s t) {x : RegIx} (hx : x ∈ rs) (b : Byte) : Writes rs ps s (t.setReg x b) :=
  h.trans ⟨fun r hr => State.setReg_reg_ne t b (by rintro rfl; exact hr hx),
    fun p _ => by cases p <;> simp [Piece.same]⟩

theorem Writes.setRegThenFlag (h : Writes rs ps s t) {x : RegIx} (hx : x ∈ rs) (hf : flagReg ∈ rs) (b : Byte)
    (f : Bool) : Writes rs ps s (t.setRegThenFlag x b f) :=
  (h.setReg hx b).setReg hf (flagByte f)

theorem Writes.setRegsFrom0 (h : Writes rs ps s t) {bs : List Byte} (hrs : ∀ r : RegIx, r.val < bs.length → r ∈ rs) :
    Writes rs ps s (t.setRegsFrom0 bs) := by
  refine h.trans ⟨fun r hr => ?_, fun p _ => by cases p <;> simp [Piece.same]⟩
  rw [State.setRegsFrom0_reg, if_neg (fun hlt => hr (hrs r hlt))]

theorem Writes.setI (h : Writes rs ps s t) (hi : .index ∈ ps) (a : Word) : Writes rs ps s (t.setI a) := by
  refine h.trans ⟨fun _ _ => rfl, fun p hp => ?_⟩
  cases p with
  | index => exact absurd hi hp
  | _ => simp [Piece.same]

theorem Writes.setFb (h : Writes rs ps s t) (hfb : .screen ∈ ps) (f : Framebuffer) : Writes rs ps s (t.setFb f) := by
  refine h.trans ⟨fun _ _ => rfl, fun p hp => ?_⟩
  cases p with
  | screen => exact absurd hfb hp
  | _ => simp [Piece.same]

theorem Writes.drawRandom (h : Writes rs ps s t) (hr : .random ∈ ps) : Writes rs ps s t.drawRandom := by
  refine h.trans ⟨fun _ _ => rfl, fun p hp => ?_⟩
  cases p with
  | random => exact absurd hr hp
  | _ => simp [Piece.same]

theorem Writes.setStack (h : Writes rs ps s t) (hs : .stack ∈ ps) (stack : Vector Word 16) (sp : Fin 17) :
    Writes rs ps s { t with stack := stack, sp := sp } := by
  refine h.trans ⟨fun _ _ => rfl, fun p hp => ?_⟩
  cases p with
  | stack => exact absurd hs hp
  | _ => simp [Piece.same, State.key, State.keyPrev, State.byteAt]

theorem writes_of_push {a : Word} (h : s.push a = some t) (hs : .stack ∈ ps) : Writes rs ps s t := by
  obtain ⟨-, -, -, hrest⟩ := State.push_some h
  rw [hrest]
  exact (Writes.refl s).setStack hs t.stack t.sp

theorem writes_of_pop {a : Word} (h : s.pop = some (a, t)) (hs : .stack ∈ ps) : Writes rs ps s t := by
  obtain ⟨k, -, -, rfl⟩ := State.pop_some h
  exact (Writes.refl s).setStack hs s.stack _

theorem writes_of_storeRun {a : Nat} {bs : List Byte} (h : s.storeRun a bs = some t) (hm : .memory ∈ ps) :
    Writes rs ps s t := by
  obtain ⟨-, rfl⟩ := State.storeRun_some h
  exact (writesOnly_setMem s _).writes (by simpa using hm)

/-! ## Instructions -/

/-- The instruction raises its fatal error in `s`, or it has no cause to and writes only what its rules name. -/
def RaisesOrWrites (i : Instr) (s : State) : Prop :=
  (∃ kind, fatalCause i s = some kind ∧ exec i s = raiseIn i kind s) ∨
  (fatalCause i s = none ∧ ∃ t, exec i s = .next t ∧ Writes (regsWrittenBy i) (piecesWrittenBy i) s t)

/-- A checked instruction does, when its operation answers nothing exactly under the condition `c` of its table. -/
theorem RaisesOrWrites.of_checked {i : Instr} {α : Type} {o : Option α} {kind : ErrorKind} {f : α → State} {c : Prop}
    [Decidable c] (hexec : exec i s = checked o i kind s f) (hcause : fatalCause i s = if c then some kind else none)
    (hc : o = none ↔ c) (hf : ∀ a, o = some a → Writes (regsWrittenBy i) (piecesWrittenBy i) s (f a)) :
    RaisesOrWrites i s := by
  cases o with
  | none => exact .inl ⟨kind, hcause.trans (if_pos (hc.1 rfl)), hexec⟩
  | some a =>
    have hnot : ¬ c := fun h => nomatch hc.2 h
    exact .inr ⟨hcause.trans (if_neg hnot), f a, hexec, hf a rfl⟩

theorem exec_raises_or_writes (i : Instr) (s : State) : RaisesOrWrites i s := by
  have hs {rs ps} : Writes rs ps s s := Writes.refl s
  cases i with
  | ret =>
    exact .of_checked (exec_ret s) rfl State.pop_none fun (a, t) ht =>
      (writes_of_pop ht (by simp [piecesWrittenBy])).setPc _
  | call nnn =>
    exact .of_checked (exec_call nnn s) rfl State.push_none fun t ht =>
      (writes_of_push ht (by simp [piecesWrittenBy])).setPc _
  | drw x y n =>
    refine .of_checked (exec_drw x y n s) rfl (State.loadRun_none.trans (by unfold baseOf; omega)) fun bs _ => ?_
    exact ((hs.setFb (by simp [piecesWrittenBy]) _).setReg (by simp [regsWrittenBy, flagReg]) _).advance
  | ldB x =>
    refine .of_checked (exec_ldB x s) rfl (State.storeRun_none.trans ?_) fun t ht =>
      (writes_of_storeRun ht (by simp [piecesWrittenBy])).advance
    rw [length_decimalDigits]
    unfold baseOf
    omega
  | ldMemVx x =>
    refine .of_checked (exec_ldMemVx x s) rfl (State.storeRun_none.trans ?_) fun t ht =>
      (writes_of_storeRun ht (by simp [piecesWrittenBy])).advance
    rw [length_registersTo]
    unfold baseOf
    omega
  | ldVxMem x =>
    refine .of_checked (exec_ldVxMem x s) rfl (State.loadRun_none.trans ?_) fun bs hbs =>
      (hs.setRegsFrom0 fun r hr => ?_).advance
    · unfold baseOf countTo
      omega
    · rw [State.length_of_loadRun hbs, countTo] at hr
      exact List.mem_filter.2 ⟨List.mem_finRange r, decide_eq_true (Nat.le_of_lt_succ hr)⟩
  | ldF x =>
    exact .of_checked (exec_ldF x s) rfl tableIndex?_none fun d _ => (hs.setI (by simp [piecesWrittenBy]) _).advance
  | skp x => exact .of_checked (exec_skp x s) rfl tableIndex?_none fun k _ => hs.skipIf _
  | sknp x => exact .of_checked (exec_sknp x s) rfl tableIndex?_none fun k _ => hs.skipIf _
  | ldVxK x =>
    refine .inr ⟨rfl, _, exec_ldVxK x s, ?_⟩
    cases s.newKey? with
    | none => exact hs
    | some k => exact (hs.setReg (by simp [regsWrittenBy]) _).advance
  | cls => exact .inr ⟨rfl, _, rfl, (hs.setFb (by simp [piecesWrittenBy]) _).advance⟩
  | sys => exact .inr ⟨rfl, _, rfl, hs.advance⟩
  | jp | jpV0 => exact .inr ⟨rfl, _, rfl, hs.setPc _⟩
  | seImm | sneImm | seReg | sneReg => exact .inr ⟨rfl, _, rfl, hs.skipIf _⟩
  | ldI | addI => exact .inr ⟨rfl, _, rfl, (hs.setI (by simp [piecesWrittenBy]) _).advance⟩
  | rnd =>
    exact .inr ⟨rfl, _, rfl, ((hs.drawRandom (by simp [piecesWrittenBy])).setReg (by simp [regsWrittenBy]) _).advance⟩
  | ldDtVx => exact .inr ⟨rfl, _, rfl, ((writesOnly_setDt s _).writes (by simp [piecesWrittenBy])).advance⟩
  | ldStVx => exact .inr ⟨rfl, _, rfl, ((writesOnly_setSt s _).writes (by simp [piecesWrittenBy])).advance⟩
  | addReg | sub | shr | subn | shl =>
    exact .inr ⟨rfl, _, rfl,
      (hs.setRegThenFlag (by simp [regsWrittenBy]) (by simp [regsWrittenBy, flagReg]) _ _).advance⟩
  | ldImm | addImm | ldReg | orReg | andReg | xorReg | ldVxDt =>
    exact .inr ⟨rfl, _, rfl, (hs.setReg (by simp [regsWrittenBy]) _).advance⟩

/-! ## Steps -/

/-- No rule names `KEYS`, `KEYS_PREV` or `STATUS`. -/
theorem piecesWrittenBy_subset (i : Instr) :
    piecesWrittenBy i ⊆ [.index, .stack, .delay, .sound, .screen, .memory, .random] := by
  cases i <;> simp [piecesWrittenBy]

theorem Writes.status_eq {i : Instr} (h : Writes rs (piecesWrittenBy i) s t) : t.status = s.status :=
  h.2 .status fun hmem => by simpa using piecesWrittenBy_subset i hmem

theorem Writes.keys_eq {i : Instr} (h : Writes rs (piecesWrittenBy i) s t) : t.keys = s.keys := by
  have hkey := h.2 .keys fun hmem => by simpa using piecesWrittenBy_subset i hmem
  exact Vector.ext fun k hk => hkey ⟨k, hk⟩

/-- A step of a running core takes a fatal error, or completes an instruction, without an error, and samples the keys
(R76, R205). -/
theorem step_raises_or_completes (hr : s.status = .running) :
    (∃ kind opcode, step s = .next (s.setStatus (.halted kind s.pc opcode))) ∨
    (∃ i t, exec i s = .next t ∧ Writes (regsWrittenBy i) (piecesWrittenBy i) s t ∧ t.status = .running ∧
      step s = .next (t.setKeysPrev t.keys)) := by
  obtain ⟨hn, -⟩ | ⟨-, -, hs⟩ | ⟨w, e, -, -, -, hs⟩ | ⟨w, i, -, -, -, hs⟩ := step_cases s
  · exact absurd hr hn
  · exact .inl ⟨_, _, hs⟩
  · exact .inl ⟨_, _, hs⟩
  · obtain ⟨kind, -, ht⟩ | ⟨-, t, ht, hw⟩ := exec_raises_or_writes i s
    · refine .inl ⟨kind, some (encode i), ?_⟩
      rw [hs, ht, raiseIn_eq, endCycle_next, sampleKeys_halted (by simp)]
      rfl
    · have hrun : t.status = .running := hw.status_eq.trans hr
      exact .inr ⟨i, t, ht, hw, hrun, by rw [hs, ht, endCycle_next, sampleKeys_running hrun]⟩

end

/-! ## The statements about instructions and steps -/

/-- Settles O20: an instruction with no cause to raise is in the second case. -/
theorem instructionsWriteOnlyWhatTheirRulesName : Obligations.InstructionsWriteOnlyWhatTheirRulesName := by
  intro i s t hcause ht
  obtain ⟨kind, hkind, -⟩ | ⟨-, u, hu, hw⟩ := exec_raises_or_writes i s
  · rw [hcause] at hkind
    cases hkind
  · cases hu.symm.trans ht
    exact hw

/-- Settles O15: a fatal error writes `STATUS` only; a completed instruction leaves the keys, and then they are
sampled. -/
theorem completedCycleSamplesTheKeys : Obligations.CompletedCycleSamplesTheKeys := by
  intro s t hr ht
  obtain ⟨kind, opcode, hs⟩ | ⟨i, u, -, hw, hrun, hs⟩ := step_raises_or_completes hr <;> cases hs.symm.trans ht
  · exact ⟨rfl, fun h => by simp at h, fun _ => rfl⟩
  · exact ⟨hw.keys_eq, fun _ => hw.keys_eq, fun h => absurd hrun h⟩

/-! ## Halted cores and reset -/

/-- Settles O14: by cases on the event. -/
theorem haltedCoreIsFrozen : Obligations.HaltedCoreIsFrozen := by
  intro s e hs he
  obtain ⟨htick, hkey, hload⟩ := events_halted hs
  cases e with
  | reset => exact absurd rfl he
  | loadProgram bytes => exact congrArg Host.Outcome.next (hload bytes)
  | step => exact step_halted hs
  | tick => exact congrArg Host.Outcome.next htick
  | keySet k b => exact congrArg Host.Outcome.next (hkey k b)
  | quit => rfl

theorem font_length : font.length = 80 := rfl

/-- Settles O57: memory after a reset lists no byte, so it reads as the font and 0x00. -/
theorem resetGivesTheResetValues : Obligations.ResetGivesTheResetValues := by
  intro s
  have hv (r : RegIx) : (resetCore s).reg r = 0x00 := Vector.getElem_replicate r.isLt
  have hstack (k : Fin 16) : (resetCore s).stackEntry k = 0x0000 := Vector.getElem_replicate k.isLt
  have hkey (k : KeyIx) : (resetCore s).key k = false := Vector.getElem_replicate k.isLt
  have hmem (a : Nat) : (resetCore s).byteAt a = font.getD a 0x00 := rfl
  refine ⟨resetCore s, rfl, hv, rfl, rfl, rfl, hstack, rfl, rfl, fun k => ⟨hkey k, hkey k⟩,
    Framebuffer.pixel_blank, fun a ha => ?_, fun a ha => ?_, rfl, rfl⟩
  · rw [hmem, List.getD_eq_getElem _ _ (font_length ▸ ha), List.getElem?_eq_getElem]
  · rw [hmem, List.getD_eq_default _ _ (font_length ▸ ha)]

end Sys2Proof.Safety
end

section
/-!
PROOFS. What no instruction observes: the sound timer and the stack entries not in use (R27, R29). A meaning run with
other values there answers the same state, with those values carried along.
-/

namespace Sys2Proof.Machine

/-! ## Other values in the unobserved places -/

/-- The state with `stack` as its stack entries and `b` in the sound timer. -/
def State.setUnseen (s : State) (stack : Vector Word 16) (b : Byte) : State := { s with stack := stack, st := b }

/-- The answer with those values in its state. -/
def withUnseen (stack : Vector Word 16) (b : Byte) (r : StepResult) : StepResult :=
  andThen r (fun t => .next (t.setUnseen stack b))

/-- The entries in use in `s` have the same values in `stack`. -/
def State.AgreesInUse (s : State) (stack : Vector Word 16) : Prop :=
  ∀ k : Fin 16, k.val < s.sp.val → stack[k.val] = s.stackEntry k

section

variable {s t : State} {stack : Vector Word 16} {b : Byte}

@[simp] theorem withUnseen_next (stack : Vector Word 16) (b : Byte) (t : State) :
    withUnseen stack b (.next t) = .next (t.setUnseen stack b) := rfl

/-! ## Checked instructions -/

/-- What a checked instruction can answer. -/
theorem checked_eq_next {α : Type} {o : Option α} {i : Instr} {kind : ErrorKind} {f : α → State}
    (h : checked o i kind s f = .next t) :
    (o = none ∧ t = s.setStatus (.halted kind s.pc (some (encode i)))) ∨ ∃ a, o = some a ∧ t = f a := by
  cases o with
  | none => cases h; exact .inl ⟨rfl, rfl⟩
  | some a => cases h; exact .inr ⟨a, rfl, rfl⟩

theorem checked_map {α β : Type} (o : Option α) (g : α → β) (i : Instr) (kind : ErrorKind) (s : State)
    (f : β → State) : checked (o.map g) i kind s f = checked o i kind s (fun a => f (g a)) := by
  cases o <;> rfl

theorem withUnseen_checked {α : Type} (o : Option α) (i : Instr) (kind : ErrorKind) (s : State) (f : α → State) :
    withUnseen stack b (checked o i kind s f) =
      checked o i kind (s.setUnseen stack b) (fun a => (f a).setUnseen stack b) := by
  cases o <;> rfl

/-! ## The operations with cases carry the values along -/

theorem State.setUnseen_skipIf (s : State) (stack : Vector Word 16) (b : Byte) (c : Bool) :
    (s.setUnseen stack b).skipIf c = (s.skipIf c).setUnseen stack b := by
  cases c <;> rfl

theorem State.setUnseen_storeRun (s : State) (stack : Vector Word 16) (b : Byte) (a : Nat) (bs : List Byte) :
    (s.setUnseen stack b).storeRun a bs = (s.storeRun a bs).map (fun t => t.setUnseen stack b) := by
  by_cases h : canWrite a bs.length <;> simp [State.storeRun, State.setUnseen, State.setMem, h]

/-- A push writes its value into both stacks. -/
theorem State.setUnseen_push (s : State) (stack : Vector Word 16) (b : Byte) (a : Word) :
    (s.setUnseen stack b).push a =
      (s.push a).map (fun t => t.setUnseen (stack.setIfInBounds s.sp.val a) b) := by
  by_cases h : s.sp.val < 16
  · have hset : stack.set s.sp.val a = stack.setIfInBounds s.sp.val a :=
      Vector.ext fun k hk => by rw [Vector.getElem_set, Vector.getElem_setIfInBounds]
    simp [State.push, State.setUnseen, h, hset]
  · simp [State.push, State.setUnseen, h]

/-- A pop reads an entry in use. -/
theorem State.setUnseen_pop (h : s.AgreesInUse stack) (b : Byte) :
    (s.setUnseen stack b).pop = s.pop.map (fun p => (p.1, p.2.setUnseen stack b)) := by
  by_cases h0 : s.sp.val = 0
  · rw [State.pop_empty h0]
    exact State.pop_empty (s := s.setUnseen stack b) h0
  · obtain ⟨k, hk⟩ : ∃ k : Fin 16, s.sp.val = k.val + 1 := ⟨⟨s.sp.val - 1, by omega⟩, by simp; omega⟩
    have hread : (s.setUnseen stack b).stackEntry k = s.stackEntry k := h k (by omega)
    rw [State.pop_eq (s := s.setUnseen stack b) k hk, State.pop_eq k hk, hread]
    rfl

/-! ## Instructions -/

/-- The stack entries after the instruction, from those before it: `2NNN` writes one, if it is not full (R104). -/
def stackAfter (i : Instr) (s : State) (stack : Vector Word 16) : Vector Word 16 :=
  match i with
  | .call _ => stack.setIfInBounds s.sp.val (s.pc + 2)
  | _ => stack

/-- The sound timer after the instruction, from what it held before: `FX18` writes it (R165). -/
def soundAfter (i : Instr) (s : State) (b : Byte) : Byte :=
  match i with
  | .ldStVx x => s.reg x
  | _ => b

/-- No meaning reads the sound timer or an entry not in use. -/
theorem exec_setUnseen (i : Instr) (h : s.AgreesInUse stack) (b : Byte) :
    exec i (s.setUnseen stack b) = withUnseen (stackAfter i s stack) (soundAfter i s b) (exec i s) := by
  cases i with
  | ret =>
    rw [exec_ret, State.setUnseen_pop h, checked_map, exec_ret, withUnseen_checked]
    rfl
  | call nnn =>
    rw [exec_call, exec_call]
    refine (congrArg (checked · _ _ _ _) (State.setUnseen_push s stack b (s.pc + 2))).trans ?_
    cases hp : s.push (s.pc + 2) with
    | none =>
      have hfull : 16 ≤ s.sp.val := (State.push_none.1 hp).ge
      rw [stackAfter, Vector.setIfInBounds_eq_of_size_le hfull]
      rfl
    | some t => rfl
  | ldB x =>
    rw [exec_ldB, State.setUnseen_storeRun, checked_map, exec_ldB, withUnseen_checked]
    rfl
  | ldMemVx x =>
    rw [exec_ldMemVx, State.setUnseen_storeRun, checked_map, exec_ldMemVx, withUnseen_checked]
    rfl
  | skp x =>
    simp only [exec_skp, withUnseen_checked, ← State.setUnseen_skipIf]
    rfl
  | sknp x =>
    simp only [exec_sknp, withUnseen_checked, ← State.setUnseen_skipIf]
    rfl
  | ldF x =>
    rw [exec_ldF, exec_ldF, withUnseen_checked]
    rfl
  | drw x y n =>
    rw [exec_drw, exec_drw, withUnseen_checked]
    rfl
  | ldVxMem x =>
    rw [exec_ldVxMem, exec_ldVxMem, withUnseen_checked]
    rfl
  | ldVxK x =>
    have hkey : (s.setUnseen stack b).newKey? = s.newKey? := rfl
    rw [exec_ldVxK, exec_ldVxK, hkey]
    cases s.newKey? <;> rfl
  | seImm | sneImm | seReg | sneReg => exact congrArg Host.Outcome.next (State.setUnseen_skipIf s stack b _)
  | _ => rfl

/-- What an instruction leaves in the unseen places: the run with the state's own values there. -/
theorem exec_unseen_eq {i : Instr} (ht : exec i s = .next t) :
    t.stack = stackAfter i s s.stack ∧ t.st = soundAfter i s s.st := by
  have hself : exec i s = withUnseen (stackAfter i s s.stack) (soundAfter i s s.st) (exec i s) :=
    exec_setUnseen i (fun _ _ => rfl) s.st
  rw [ht, withUnseen_next] at hself
  have heq := Host.Outcome.next.inj hself
  exact ⟨congrArg State.stack heq, congrArg State.st heq⟩

/-- An instruction that is no call and no return leaves the count of entries. -/
theorem exec_sp_eq {i : Instr} (hi : .stack ∉ Safety.piecesWrittenBy i) (ht : exec i s = .next t) : t.sp = s.sp := by
  obtain ⟨kind, -, hraise⟩ | ⟨-, u, hu, hw⟩ := Safety.exec_raises_or_writes i s
  · cases hraise.symm.trans ht
    rfl
  · cases hu.symm.trans ht
    exact (hw.2 .stack hi).1

theorem ret_sp_le (ht : exec .ret s = .next t) : t.sp.val ≤ s.sp.val := by
  obtain ⟨-, rfl⟩ | ⟨⟨a, u⟩, hu, rfl⟩ := checked_eq_next ((exec_ret s).symm.trans ht)
  · exact le_refl _
  · obtain ⟨k, hk, -, rfl⟩ := State.pop_some hu
    exact hk ▸ Nat.le_succ k.val

theorem call_sp_le {nnn : Addr12} (ht : exec (.call nnn) s = .next t) : t.sp.val ≤ s.sp.val + 1 := by
  obtain ⟨-, rfl⟩ | ⟨u, hu, rfl⟩ := checked_eq_next ((exec_call nnn s).symm.trans ht)
  · exact Nat.le_succ _
  · exact (State.push_some hu).2.1.le

/-- Stacks that agree on the entries in use agree on them after the instruction: the one entry that comes into use is
the one that a call writes. -/
theorem stackAfter_agrees {i : Instr} (h : s.AgreesInUse stack) (ht : exec i s = .next t) :
    t.AgreesInUse (stackAfter i s stack) := by
  intro k hk
  rw [State.stackEntry, (exec_unseen_eq ht).1]
  cases i with
  | call nnn =>
    have hsp := call_sp_le ht
    simp only [stackAfter, Vector.getElem_setIfInBounds]
    split
    · rfl
    · exact h k (by omega)
  | ret => exact h k (hk.trans_le (ret_sp_le ht))
  | _ => exact h k (exec_sp_eq (by simp [Safety.piecesWrittenBy]) ht ▸ hk)

/-! ## Steps -/

/-- `r`, the answer of `s` with `stack` and `b` in the unseen places, is `t` but for these places; there the entries in
use are those of `t`, and a place that held the value of `s` holds the value of `t`. -/
def AnswersAlike (s t : State) (stack : Vector Word 16) (b : Byte) (r : StepResult) : Prop :=
  ∃ stack' c, r = .next (t.setUnseen stack' c) ∧ t.AgreesInUse stack' ∧
    (stack = s.stack → stack' = t.stack) ∧ (b = s.st → c = t.st)

theorem exec_answersAlike {i : Instr} (h : s.AgreesInUse stack) (b : Byte) (ht : exec i s = .next t) :
    AnswersAlike s t stack b (exec i (s.setUnseen stack b)) := by
  obtain ⟨hstack, hst⟩ := exec_unseen_eq ht
  refine ⟨stackAfter i s stack, soundAfter i s b, ?_, stackAfter_agrees h ht, ?_, ?_⟩
  · rw [exec_setUnseen i h, ht, withUnseen_next]
  · rintro rfl
    exact hstack.symm
  · rintro rfl
    exact hst.symm

theorem sampleKeys_setUnseen (t : State) (stack : Vector Word 16) (b : Byte) :
    sampleKeys (t.setUnseen stack b) = (sampleKeys t).setUnseen stack b := by
  by_cases hr : t.status = .running
  · rw [sampleKeys_running hr, sampleKeys_running (t := t.setUnseen stack b) hr]
    rfl
  · rw [sampleKeys_halted hr, sampleKeys_halted (t := t.setUnseen stack b) hr]

theorem AnswersAlike.endCycle {r : StepResult} (h : AnswersAlike s t stack b r) :
    AnswersAlike s (sampleKeys t) stack b (endCycle r) := by
  obtain ⟨stack', c, rfl, hin, hstack, hst⟩ := h
  refine ⟨stack', c, by rw [endCycle_next, sampleKeys_setUnseen], ?_⟩
  by_cases hr : t.status = .running
  · rw [sampleKeys_running hr]
    exact ⟨hin, hstack, hst⟩
  · rw [sampleKeys_halted hr]
    exact ⟨hin, hstack, hst⟩

/-- A step fetches, decodes and runs the same instruction whatever the unseen places hold. -/
theorem step_answersAlike (h : s.AgreesInUse stack) (b : Byte) (ht : step s = .next t) :
    AnswersAlike s t stack b (step (s.setUnseen stack b)) := by
  obtain ⟨hr, hs⟩ | ⟨hr, hw, hs⟩ | ⟨w, e, hr, hw, hd, hs⟩ | ⟨w, i, hr, hw, hd, hs⟩ := step_cases s
  · cases hs.symm.trans ht
    exact ⟨stack, b, step_halted (s := s.setUnseen stack b) hr, h, id, id⟩
  · cases hs.symm.trans ht
    exact ⟨stack, b, step_fetch_error (s := s.setUnseen stack b) hr hw, h, id, id⟩
  · cases hs.symm.trans ht
    exact ⟨stack, b, step_illegal (s := s.setUnseen stack b) hr hw hd, h, id, id⟩
  · rw [step_instr (s := s.setUnseen stack b) hr hw hd]
    rw [hs] at ht
    cases hu : exec i s with
    | next u =>
      rw [hu] at ht
      cases ht
      exact (exec_answersAlike h b hu).endCycle
    | fault f => cases f
    | refused q => rw [hu] at ht; cases ht

end

/-! ## The statements about the sound timer and the stale entries -/

/-- Settles O22: the state with its own stack and another sound timer answers with the stack of the next state. -/
theorem soundTimerAffectsNothingElse : Obligations.SoundTimerAffectsNothingElse := by
  intro s t b ht
  obtain ⟨stack', c, hstep, -, hstack, -⟩ := step_answersAlike (stack := s.stack) (fun _ _ => rfl) b ht
  rw [hstack rfl] at hstep
  exact ⟨c, hstep⟩

/-- Settles O24: the state with its own sound timer and other stale entries answers with the sound timer of the next
state. -/
theorem staleStackEntriesAreUnobservable : Obligations.StaleStackEntriesAreUnobservable := by
  intro s t stack h ht
  obtain ⟨stack', c, hstep, hagree, -, hst⟩ := step_answersAlike h s.st ht
  rw [hst rfl] at hstep
  exact ⟨stack', hstep, hagree⟩

end Sys2Proof.Machine
end

section
/-!
PROOFS. Memory (spec/20_memory.md): the word of an instruction decodes to it, a store is seen by later reads and
fetches, no event but a reset changes the font, and what a program load copies (R54, R57, R63, R64, R70 to R76).
-/

namespace Sys2Proof

/-! ## Decoding the word of an instruction (R70 to R75) -/

/-- A word of family 0 that is neither of the two exact words decodes to `0NNN`. -/
theorem decodeWord_formNNN_zero {nnn : Addr12} (hcls : nnn ≠ 0x0E0#12) (hret : nnn ≠ 0x0EE#12) :
    decodeWord (formNNN 0x0#4 nnn) = .ok (.sys nnn) := by
  have hword {a : Addr12} (ha : nnn ≠ a) : formNNN 0x0#4 nnn ≠ formNNN 0x0#4 a := fun h =>
    ha (by simpa using congrArg fieldNNN h)
  have hcls' : formNNN 0x0#4 nnn ≠ 0x00E0#16 := hword hcls
  have hret' : formNNN 0x0#4 nnn ≠ 0x00EE#16 := hword hret
  simp [decodeWord, hcls', hret']

/-- By the family of the instruction's word: the fields of a word are those of the format that made it, and the
family, with the sub-opcode where there is one, picks the constructor. -/
theorem decodeWord_encode {i : Instr} (h : i.wellFormed = true) : decodeWord (encode i) = .ok i := by
  cases i with
  | cls | ret => rfl
  | sys nnn =>
    obtain ⟨hcls, hret⟩ : nnn ≠ 0x0E0#12 ∧ nnn ≠ 0x0EE#12 := by simpa [Instr.wellFormed] using h
    exact decodeWord_formNNN_zero hcls hret
  | jp | call | ldI | jpV0 => simp [encode, decodeWord]
  | seImm | sneImm | ldImm | addImm | rnd => simp [encode, decodeWord]
  | seReg | sneReg | drw => simp [encode, decodeWord]
  | ldReg | orReg | andReg | xorReg | addReg | sub | shr | subn | shl => simp [encode, decodeWord, decodeFamily8]
  | skp | sknp => simp [encode, decodeWord, decodeFamilyE]
  | ldVxDt | ldVxK | ldDtVx | ldStVx | addI | ldF | ldB | ldMemVx | ldVxMem =>
    simp [encode, decodeWord, decodeFamilyF]

/-- Settles O2: the word decodes by its family, and the two bytes make the word again. -/
theorem encodeThenDecodeGivesTheInstruction : Obligations.EncodeThenDecodeGivesTheInstruction :=
  fun i h => ⟨decodeWord_encode h, fun rest => decodeBytes_encodeBytes i rest (decodeWord_encode h)⟩

end Sys2Proof

namespace Sys2Proof.Machine

/-! ## Storing registers (R144) -/

theorem exec_ldMemVx_fits {s : State} (x : RegIx) (hfont : 0x0050 ≤ baseOf s.i)
    (hend : baseOf s.i + x.val ≤ 0x0FFF) :
    exec (.ldMemVx x) s = .next (s.setMem (s.mem.writeRun (baseOf s.i) (registersTo x s.v))).advance := by
  rw [exec_ldMemVx, State.storeRun_eq ⟨hfont, by rw [length_registersTo]; omega⟩]
  rfl

theorem Memory.read_writeRun_registersTo (m : Memory) (b : Nat) {x r : RegIx} (v : Vector Byte 16) (hr : r ≤ x) :
    (m.writeRun b (registersTo x v)).read (b + r.val) = v[r.val] := by
  have hlt : r.val < x.val + 1 := Nat.lt_succ_of_le hr
  rw [Memory.read_writeRun, length_registersTo, if_pos (by omega), Nat.add_sub_cancel_left, getD_registersTo x r v hr]

end Sys2Proof.Machine

namespace Sys2Proof.Safety

open Sys2Proof.Machine

section

variable {s t : State} {a : Nat}

/-! ## The font region (R54) -/

theorem storeRun_byteAt_font {b : Nat} {bs : List Byte} (h : s.storeRun b bs = some t) (ha : a < 80) :
    t.byteAt a = s.byteAt a := by
  obtain ⟨⟨hb, -⟩, rfl⟩ := State.storeRun_some h
  exact Memory.read_writeRun_outside bs s.mem (.inl (ha.trans_le hb))

/-- An instruction made of one checked store leaves the font: it raises, or it stored above the font. -/
theorem checked_storeRun_byteAt_font {b : Nat} {bs : List Byte} {i : Instr} {kind : ErrorKind}
    (h : checked (s.storeRun b bs) i kind s State.advance = .next t) (ha : a < 80) : t.byteAt a = s.byteAt a := by
  obtain ⟨-, rfl⟩ | ⟨u, hu, rfl⟩ := checked_eq_next h
  · rfl
  · rw [State.advance_byteAt]
    exact storeRun_byteAt_font hu ha

/-- Only `FX33` and `FX55` write memory, by a checked store. -/
theorem exec_byteAt_font {i : Instr} (ht : exec i s = .next t) (ha : a < 80) : t.byteAt a = s.byteAt a := by
  obtain ⟨kind, -, hraise⟩ | ⟨-, u, hu, hw⟩ := exec_raises_or_writes i s
  · cases hraise.symm.trans ht
    rfl
  · cases hu.symm.trans ht
    cases i with
    | ldB x => exact checked_storeRun_byteAt_font ((exec_ldB x s).symm.trans ht) ha
    | ldMemVx x => exact checked_storeRun_byteAt_font ((exec_ldMemVx x s).symm.trans ht) ha
    | _ => exact hw.2 .memory (by simp [piecesWrittenBy]) a

theorem step_byteAt_font (ht : step s = .next t) (ha : a < 80) : t.byteAt a = s.byteAt a := by
  by_cases hr : s.status = .running
  · obtain ⟨kind, opcode, hs⟩ | ⟨i, u, hu, -, -, hs⟩ := step_raises_or_completes hr <;> cases hs.symm.trans ht
    · rfl
    · rw [State.setKeysPrev_byteAt]
      exact exec_byteAt_font hu ha
  · cases (step_halted hr).symm.trans ht
    rfl

theorem event_byteAt_font {e : Event} (he : e ≠ .reset) (ht : e.apply s = .next t) (ha : a < 80) :
    t.byteAt a = s.byteAt a := by
  cases e with
  | reset => exact absurd rfl he
  | step => exact step_byteAt_font ht ha
  | loadProgram bytes =>
    cases ht
    exact loadProgram_byteAt_outside s bytes (.inl (by omega))
  | tick =>
    cases ht
    exact (writesOnly_tick s).1 .memory (by simp) a
  | keySet k b =>
    cases ht
    exact (writesOnly_keySet s k b).1 .memory (by simp) a
  | quit =>
    cases ht
    rfl

end

/-! ## The statements about memory -/

/-- Settles O8: the fetch bound is met at 0x0FFE, and above it a step has no word. -/
theorem fetchIsBigEndianAndBounded : Obligations.FetchIsBigEndianAndBounded :=
  ⟨fun _ _ ha => ⟨_, State.fetchAt_eq (by omega), wordOfBytes_toNat _ _⟩,
    fun _ hr hpc => step_fetch_error hr (State.fetchAt_none.2 (by omega))⟩

/-- Settles O19: a reset lists no byte of memory; by cases on any other event. -/
theorem fontRegionIsConstant : Obligations.FontRegionIsConstant := by
  intro s t e ht
  refine ⟨fun he a ha => event_byteAt_font he ht ha, fun he a ha => ?_⟩
  subst he
  cases ht
  rfl

/-- Settles O46: the two bytes at `PC` are two of those stored. -/
theorem storedBytesAreFetched : Obligations.StoredBytesAreFetched := by
  intro s t u x r q hfont hend ht hrq hqx hmem hpc
  cases (exec_ldMemVx_fits x hfont hend).symm.trans ht
  have hq : q.val ≤ x.val := hqx
  have hrx : r ≤ x := Fin.le_def.2 (by omega)
  have hhigh : u.byteAt u.pc.toNat = s.reg r := by
    rw [State.byteAt, hmem, hpc]
    exact Memory.read_writeRun_registersTo s.mem _ s.v hrx
  have hlow : u.byteAt (u.pc.toNat + 1) = s.reg q := by
    rw [State.byteAt, hmem, hpc, Nat.add_assoc, hrq]
    exact Memory.read_writeRun_registersTo s.mem _ s.v hqx
  refine ⟨_, State.fetchAt_eq (by omega), ?_⟩
  rw [wordOfBytes_toNat, hhigh, hlow]

/-- Settles O56: an image that fits is one run of bytes written to memory; a longer one writes `STATUS` only. -/
theorem programLoadCopiesOrHalts : Obligations.ProgramLoadCopiesOrHalts := by
  intro s bytes hr
  refine ⟨fun hfit => ?_, fun hlong => loadProgram_too_long hr hlong⟩
  rw [loadProgram_fits hr hfit]
  refine ⟨fun k hk => ?_, fun b hb => Memory.read_writeRun_outside bytes s.mem hb, writesOnly_setMem s _⟩
  rw [State.setMem_byteAt, Memory.read_writeRun, if_pos (by omega), Nat.add_sub_cancel_left]

end Sys2Proof.Safety
end

section
/-!
PROOFS. Encoding (spec/30_encoding.md): every word is illegal or the word of an instruction (R75, R77), the rows of
the opcode map against the decoder by family (R74, R82), and what a step does with the word it fetched (R76).
-/

namespace Sys2Proof

section

variable {w v : Word} {op : BitVec 4}

/-! ## A word from its family and its other fields (R71, R72) -/

theorem formNNN_fields (hop : fieldOp w = op.toNat) : formNNN op (fieldNNN w) = w := by
  rw [← BitVec.eq_of_toNat_eq hop]
  exact (word_eq_formNNN w).symm

theorem formXNN_fields (hop : fieldOp w = op.toNat) : formXNN op (fieldX w) (fieldNN w) = w := by
  rw [← BitVec.eq_of_toNat_eq hop]
  exact (word_eq_formXNN w).symm

theorem formX_fields {sub : Byte} (hop : fieldOp w = op.toNat) (hsub : fieldNN w = sub) :
    formX op (fieldX w) sub = w := by
  rw [formX_eq, ← hsub, formXNN_fields hop]

theorem formXY_fields {n : Nibble} (hop : fieldOp w = op.toNat) (hn : fieldN w = n) :
    formXY op (fieldX w) (fieldY w) n = w := by
  rw [← BitVec.eq_of_toNat_eq hop, ← hn]
  exact (word_eq_formXY w).symm

/-! ## The words that a mask and a value select (R74) -/

theorem nibble_and_mask (x : Nibble) : x &&& 0xF#4 = x := BitVec.and_allOnes

theorem byte_and_mask (x : Byte) : x &&& 0xFF#8 = x := BitVec.and_allOnes

theorem word_and_mask (w : Word) : w &&& 0xFFFF#16 = w := BitVec.and_allOnes

theorem and_F000 (w : Word) : w &&& 0xF000#16 = formNNN (w.extractLsb' 12 4) 0 := by
  conv_lhs => rw [word_eq_formNNN w]
  refine (BitVec.and_append (x₂ := 0xF#4) (y₂ := 0#12)).trans ?_
  rw [nibble_and_mask, BitVec.and_zero]
  rfl

theorem and_F00F (w : Word) : w &&& 0xF00F#16 = formXY (w.extractLsb' 12 4) 0 0 (fieldN w) := by
  conv_lhs => rw [word_eq_formXY w]
  refine (BitVec.and_append (x₂ := 0xF#4 ++ 0#4 ++ 0#4) (y₂ := 0xF#4)).trans ?_
  rw [BitVec.and_append, BitVec.and_append, BitVec.and_zero, BitVec.and_zero, nibble_and_mask, nibble_and_mask]
  rfl

theorem and_F0FF (w : Word) : w &&& 0xF0FF#16 = formXNN (w.extractLsb' 12 4) 0 (fieldNN w) := by
  conv_lhs => rw [word_eq_formXNN w]
  refine (BitVec.and_append (x₂ := 0xF#4 ++ 0#4) (y₂ := 0xFF#8)).trans ?_
  rw [BitVec.and_append, BitVec.and_zero, nibble_and_mask, byte_and_mask]
  rfl

theorem and_F000_eq_iff (hv : v &&& 0xF000#16 = v) : w &&& 0xF000#16 = v ↔ fieldOp w = fieldOp v := by
  constructor
  · rintro rfl
    rw [and_F000, fieldOp_formNNN]
    rfl
  · intro hop
    rw [← hv, and_F000, and_F000, BitVec.eq_of_toNat_eq hop]

theorem and_F00F_eq_iff (hv : v &&& 0xF00F#16 = v) :
    w &&& 0xF00F#16 = v ↔ fieldOp w = fieldOp v ∧ fieldN w = fieldN v := by
  constructor
  · rintro rfl
    rw [and_F00F, fieldOp_formXY, fieldN_formXY]
    exact ⟨rfl, rfl⟩
  · rintro ⟨hop, hn⟩
    rw [← hv, and_F00F, and_F00F, BitVec.eq_of_toNat_eq hop, hn]

theorem and_F0FF_eq_iff (hv : v &&& 0xF0FF#16 = v) :
    w &&& 0xF0FF#16 = v ↔ fieldOp w = fieldOp v ∧ fieldNN w = fieldNN v := by
  constructor
  · rintro rfl
    rw [and_F0FF, fieldOp_formXNN, fieldNN_formXNN]
    exact ⟨rfl, rfl⟩
  · rintro ⟨hop, hnn⟩
    rw [← hv, and_F0FF, and_F0FF, BitVec.eq_of_toNat_eq hop, hnn]

/-! ## The families with sub-opcodes (R75) -/

theorem decodeWord_family8 (hop : fieldOp w = 0x8) : decodeWord w = decodeFamily8 w := by
  simp [decodeWord, hop]

theorem decodeWord_familyE (hop : fieldOp w = 0xE) : decodeWord w = decodeFamilyE w := by
  simp [decodeWord, hop]

theorem decodeWord_familyF (hop : fieldOp w = 0xF) : decodeWord w = decodeFamilyF w := by
  simp [decodeWord, hop]

theorem decodeFamily8_unlisted (h : fieldN w ∈ ([0x8, 0x9, 0xA, 0xB, 0xC, 0xD, 0xF] : List Nibble)) :
    decodeFamily8 w = .error (.unsupportedOpcode w) := by
  simp only [List.mem_cons, List.not_mem_nil, or_false] at h
  unfold decodeFamily8
  rcases h with h | h | h | h | h | h | h <;> rw [h] <;> rfl

theorem decodeFamilyE_unlisted (h : fieldNN w ∉ ([0x9E, 0xA1] : List Byte)) :
    decodeFamilyE w = .error (.unsupportedOpcode w) := by
  unfold decodeFamilyE
  split
  case h_3 => rfl
  all_goals
    rename_i hnn
    simp [← BitVec.toNat_inj, hnn] at h

theorem decodeFamilyF_unlisted
    (h : fieldNN w ∉ ([0x07, 0x0A, 0x15, 0x18, 0x1E, 0x29, 0x33, 0x55, 0x65] : List Byte)) :
    decodeFamilyF w = .error (.unsupportedOpcode w) := by
  unfold decodeFamilyF
  split
  case h_10 => rfl
  all_goals
    rename_i hnn
    simp [← BitVec.toNat_inj, hnn] at h

/-! ## The words of instructions -/

/-- The word is the encoding of an instruction. -/
def IsEncoding (w : Word) : Prop := ∃ i : Instr, i.wellFormed = true ∧ encode i = w

theorem isEncoding_family0 (hop : fieldOp w = 0x0) : IsEncoding w := by
  by_cases hcls : w = 0x00E0#16
  · exact ⟨.cls, rfl, hcls.symm⟩
  by_cases hret : w = 0x00EE#16
  · exact ⟨.ret, rfl, hret.symm⟩
  have hw : formNNN 0x0 (fieldNNN w) = w := formNNN_fields hop
  have hcls' : fieldNNN w ≠ 0x0E0#12 := fun h => hcls (by rw [← hw, h]; rfl)
  have hret' : fieldNNN w ≠ 0x0EE#12 := fun h => hret (by rw [← hw, h]; rfl)
  exact ⟨.sys (fieldNNN w), by simp [Instr.wellFormed, hcls', hret'], hw⟩

theorem isEncoding_family8 (hop : fieldOp w = 0x8)
    (hn : fieldN w ∈ ([0x0, 0x1, 0x2, 0x3, 0x4, 0x5, 0x6, 0x7, 0xE] : List Nibble)) : IsEncoding w := by
  simp only [List.mem_cons, List.not_mem_nil, or_false] at hn
  obtain hn | hn | hn | hn | hn | hn | hn | hn | hn := hn
  · exact ⟨.ldReg _ _, rfl, formXY_fields hop hn⟩
  · exact ⟨.orReg _ _, rfl, formXY_fields hop hn⟩
  · exact ⟨.andReg _ _, rfl, formXY_fields hop hn⟩
  · exact ⟨.xorReg _ _, rfl, formXY_fields hop hn⟩
  · exact ⟨.addReg _ _, rfl, formXY_fields hop hn⟩
  · exact ⟨.sub _ _, rfl, formXY_fields hop hn⟩
  · exact ⟨.shr _ _, rfl, formXY_fields hop hn⟩
  · exact ⟨.subn _ _, rfl, formXY_fields hop hn⟩
  · exact ⟨.shl _ _, rfl, formXY_fields hop hn⟩

theorem isEncoding_familyE (hop : fieldOp w = 0xE) (hnn : fieldNN w ∈ ([0x9E, 0xA1] : List Byte)) :
    IsEncoding w := by
  simp only [List.mem_cons, List.not_mem_nil, or_false] at hnn
  obtain hnn | hnn := hnn
  · exact ⟨.skp _, rfl, formX_fields hop hnn⟩
  · exact ⟨.sknp _, rfl, formX_fields hop hnn⟩

theorem isEncoding_familyF (hop : fieldOp w = 0xF)
    (hnn : fieldNN w ∈ ([0x07, 0x0A, 0x15, 0x18, 0x1E, 0x29, 0x33, 0x55, 0x65] : List Byte)) : IsEncoding w := by
  simp only [List.mem_cons, List.not_mem_nil, or_false] at hnn
  obtain hnn | hnn | hnn | hnn | hnn | hnn | hnn | hnn | hnn := hnn
  · exact ⟨.ldVxDt _, rfl, formX_fields hop hnn⟩
  · exact ⟨.ldVxK _, rfl, formX_fields hop hnn⟩
  · exact ⟨.ldDtVx _, rfl, formX_fields hop hnn⟩
  · exact ⟨.ldStVx _, rfl, formX_fields hop hnn⟩
  · exact ⟨.addI _, rfl, formX_fields hop hnn⟩
  · exact ⟨.ldF _, rfl, formX_fields hop hnn⟩
  · exact ⟨.ldB _, rfl, formX_fields hop hnn⟩
  · exact ⟨.ldMemVx _, rfl, formX_fields hop hnn⟩
  · exact ⟨.ldVxMem _, rfl, formX_fields hop hnn⟩

theorem subopcode8_listed : ∀ n : Nibble, n ∉ ([0x8, 0x9, 0xA, 0xB, 0xC, 0xD, 0xF] : List Nibble) →
    n ∈ ([0x0, 0x1, 0x2, 0x3, 0x4, 0x5, 0x6, 0x7, 0xE] : List Nibble) := by
  decide

end

/-! ## The rows of the opcode map and the decoder by family (R74, R82) -/

/-- The constructors of `Instr` stand in the order of the opcode map, and each row selects its instruction's words. -/
theorem row_selects_encode (i : Instr) :
    ∃ r, opcodeTable[i.ctorIdx]? = some r ∧ encode i &&& r.mask = r.value := by
  cases i with
  | cls | ret => exact ⟨_, rfl, rfl⟩
  | sys | jp | call | ldI | jpV0 => exact ⟨_, rfl, (and_F000_eq_iff rfl).2 (fieldOp_formNNN _ _)⟩
  | seImm | sneImm | ldImm | addImm | rnd => exact ⟨_, rfl, (and_F000_eq_iff rfl).2 (fieldOp_formXNN _ _ _)⟩
  | drw => exact ⟨_, rfl, (and_F000_eq_iff rfl).2 (fieldOp_formXY _ _ _ _)⟩
  | seReg | ldReg | orReg | andReg | xorReg | addReg | sub | shr | subn | shl | sneReg =>
    exact ⟨_, rfl, (and_F00F_eq_iff rfl).2 ⟨fieldOp_formXY _ _ _ _, fieldN_formXY _ _ _ _⟩⟩
  | skp | sknp | ldVxDt | ldVxK | ldDtVx | ldStVx | addI | ldF | ldB | ldMemVx | ldVxMem =>
    exact ⟨_, rfl, (and_F0FF_eq_iff rfl).2 ⟨fieldOp_formX _ _ _, fieldNN_formX _ _ _⟩⟩

theorem build_mnemonic : ∀ r ∈ opcodeTable, ∀ w : Word, (r.build w).mnemonic = r.mnemonic := by
  simp [opcodeTable, opcodeRows0to5, opcodeRows6to8, opcodeRows9toE, opcodeRowsF, Instr.mnemonic]

/-- Outside family 0, a word that the row selects decodes by family to what the row builds. -/
def OpcodeRow.Decodes (r : OpcodeRow) : Prop :=
  ∀ w : Word, w &&& r.mask = r.value → fieldOp w ≠ 0x0 → decodeWord w = .ok (r.build w)

section

variable {m p a : String} {v : Word} {build : Word → Instr}

theorem decodes_of_FFFF (hv : fieldOp v = 0x0) : OpcodeRow.Decodes ⟨m, p, a, 0xFFFF#16, v, build⟩ := by
  intro w hw hop
  rw [word_and_mask] at hw
  exact absurd (hw ▸ hv) hop

theorem decodes_of_F000 (hv : v &&& 0xF000#16 = v)
    (h : ∀ w, fieldOp w = fieldOp v → fieldOp w ≠ 0x0 → decodeWord w = .ok (build w)) :
    OpcodeRow.Decodes ⟨m, p, a, 0xF000#16, v, build⟩ :=
  fun w hw => h w ((and_F000_eq_iff hv).1 hw)

theorem decodes_of_F00F (hv : v &&& 0xF00F#16 = v)
    (h : ∀ w, fieldOp w = fieldOp v → fieldN w = fieldN v → decodeWord w = .ok (build w)) :
    OpcodeRow.Decodes ⟨m, p, a, 0xF00F#16, v, build⟩ := by
  intro w hw _
  obtain ⟨hop, hn⟩ := (and_F00F_eq_iff hv).1 hw
  exact h w hop hn

theorem decodes_of_F0FF (hv : v &&& 0xF0FF#16 = v)
    (h : ∀ w, fieldOp w = fieldOp v → fieldNN w = fieldNN v → decodeWord w = .ok (build w)) :
    OpcodeRow.Decodes ⟨m, p, a, 0xF0FF#16, v, build⟩ := by
  intro w hw _
  obtain ⟨hop, hnn⟩ := (and_F0FF_eq_iff hv).1 hw
  exact h w hop hnn

end

theorem opcodeRows0to5_decode : ∀ r ∈ opcodeRows0to5, r.Decodes := by
  simp only [opcodeRows0to5, List.forall_mem_cons]
  refine ⟨decodes_of_FFFF rfl, decodes_of_FFFF rfl, decodes_of_F000 rfl fun w hop hne => absurd hop hne,
    ?_, ?_, ?_, ?_, decodes_of_F00F rfl fun w hop hn => by rw [decodeWord, hop, hn]; rfl, List.forall_mem_nil _⟩
  all_goals exact decodes_of_F000 rfl fun w hop _ => by rw [decodeWord, hop]; rfl

theorem opcodeRows6to8_decode : ∀ r ∈ opcodeRows6to8, r.Decodes := by
  simp only [opcodeRows6to8, List.forall_mem_cons]
  refine ⟨?_, ?_, ?_, ?_, ?_, ?_, ?_, ?_, ?_, ?_, ?_, List.forall_mem_nil _⟩
  iterate 2 exact decodes_of_F000 rfl fun w hop _ => by rw [decodeWord, hop]; rfl
  all_goals exact decodes_of_F00F rfl fun w hop hn => by rw [decodeWord_family8 hop, decodeFamily8, hn]; rfl

theorem opcodeRows9toE_decode : ∀ r ∈ opcodeRows9toE, r.Decodes := by
  simp only [opcodeRows9toE, List.forall_mem_cons]
  refine ⟨decodes_of_F00F rfl fun w hop hn => by rw [decodeWord, hop, hn]; rfl, ?_, ?_, ?_, ?_, ?_, ?_,
    List.forall_mem_nil _⟩
  iterate 4 exact decodes_of_F000 rfl fun w hop _ => by rw [decodeWord, hop]; rfl
  all_goals exact decodes_of_F0FF rfl fun w hop hnn => by rw [decodeWord_familyE hop, decodeFamilyE, hnn]; rfl

theorem opcodeRowsF_decode : ∀ r ∈ opcodeRowsF, r.Decodes := by
  simp only [opcodeRowsF, List.forall_mem_cons]
  refine ⟨?_, ?_, ?_, ?_, ?_, ?_, ?_, ?_, ?_, List.forall_mem_nil _⟩
  all_goals exact decodes_of_F0FF rfl fun w hop hnn => by rw [decodeWord_familyF hop, decodeFamilyF, hnn]; rfl

theorem opcodeTable_decodes : ∀ r ∈ opcodeTable, r.Decodes := by
  simp only [opcodeTable, List.forall_mem_append]
  exact ⟨⟨⟨opcodeRows0to5_decode, opcodeRows6to8_decode⟩, opcodeRows9toE_decode⟩, opcodeRowsF_decode⟩

/-- The three rows of family 0 overlap; the first match among them is the order of rule R75. -/
theorem decodeByTable_family0 {w : Word} (hop : fieldOp w = 0x0) : decodeByTable w = decodeWord w := by
  have hsys : w &&& 0xF000#16 = 0x0000#16 := (and_F000_eq_iff rfl).2 hop
  by_cases hcls : w = 0x00E0#16
  · rw [hcls]
    rfl
  by_cases hret : w = 0x00EE#16
  · rw [hret]
    rfl
  simp [decodeByTable, opcodeTable, opcodeRows0to5, decodeWord, word_and_mask, hop, hcls, hret, hsys]

end Sys2Proof

namespace Sys2Proof.Safety

open Sys2Proof.Machine

/-! ## Illegal words (R77) -/

theorem decodeWord_illegal {w : Word} (h : IllegalWord w) : decodeWord w = .error (.unsupportedOpcode w) := by
  obtain ⟨hop, hn⟩ | ⟨hop, hn⟩ | ⟨hop, hn⟩ | ⟨hop, hnn⟩ | ⟨hop, hnn⟩ := h
  · rw [decodeWord, hop]
    exact if_neg hn
  · rw [decodeWord_family8 hop, decodeFamily8_unlisted hn]
  · rw [decodeWord, hop]
    exact if_neg hn
  · rw [decodeWord_familyE hop, decodeFamilyE_unlisted hnn]
  · rw [decodeWord_familyF hop, decodeFamilyF_unlisted hnn]

/-- By the family of the word, and in families 5, 8, 9, E and F by its sub-opcode. -/
theorem isEncoding_of_not_illegal {w : Word} (h : ¬ IllegalWord w) : IsEncoding w := by
  obtain ⟨h5, h8, h9, hE, hF⟩ := by simpa only [IllegalWord, not_or, not_and, not_not] using h
  have hlt : fieldOp w < 16 := (w.extractLsb' 12 4).isLt
  match hop : fieldOp w, hlt with
  | 0x0, _ => exact isEncoding_family0 hop
  | 0x1, _ => exact ⟨.jp _, rfl, formNNN_fields hop⟩
  | 0x2, _ => exact ⟨.call _, rfl, formNNN_fields hop⟩
  | 0x3, _ => exact ⟨.seImm _ _, rfl, formXNN_fields hop⟩
  | 0x4, _ => exact ⟨.sneImm _ _, rfl, formXNN_fields hop⟩
  | 0x5, _ => exact ⟨.seReg _ _, rfl, formXY_fields hop (h5 hop)⟩
  | 0x6, _ => exact ⟨.ldImm _ _, rfl, formXNN_fields hop⟩
  | 0x7, _ => exact ⟨.addImm _ _, rfl, formXNN_fields hop⟩
  | 0x8, _ => exact isEncoding_family8 hop (subopcode8_listed _ (h8 hop))
  | 0x9, _ => exact ⟨.sneReg _ _, rfl, formXY_fields hop (h9 hop)⟩
  | 0xA, _ => exact ⟨.ldI _, rfl, formNNN_fields hop⟩
  | 0xB, _ => exact ⟨.jpV0 _, rfl, formNNN_fields hop⟩
  | 0xC, _ => exact ⟨.rnd _ _, rfl, formXNN_fields hop⟩
  | 0xD, _ => exact ⟨.drw _ _ _, rfl, formXY_fields hop rfl⟩
  | 0xE, _ => exact isEncoding_familyE hop (hE hop)
  | 0xF, _ => exact isEncoding_familyF hop (hF hop)
  | n + 16, hlt => exact absurd hlt (by omega)

theorem illegal_or_encoding (w : Word) : IllegalWord w ∨ IsEncoding w :=
  or_iff_not_imp_left.2 isEncoding_of_not_illegal

/-! ## Steps (R76) -/

theorem decodeWord_of_decodeBytes {hi lo : Byte} {i : Instr} {rest : List Byte}
    (h : decodeBytes [hi, lo] = .ok (i, rest)) : decodeWord (wordOfBytes hi lo) = .ok i := by
  cases hd : decodeWord (wordOfBytes hi lo) with
  | ok j =>
    obtain ⟨rfl, -⟩ : j = i ∧ [] = rest := by simpa [decodeBytes, hd] using h
    rfl
  | error e => simp [decodeBytes, hd] at h

/-- An instruction answers a next state, a fatal error included (R205). -/
theorem exec_next (i : Instr) (s : State) : ∃ t, exec i s = .next t := by
  obtain ⟨kind, -, hraise⟩ | ⟨-, t, ht, -⟩ := exec_raises_or_writes i s
  · exact ⟨_, hraise⟩
  · exact ⟨t, ht⟩

theorem sampleKeys_eq (t : State) :
    sampleKeys t = if t.status = .running then { t with keysPrev := t.keys } else t := by
  split
  case isTrue hr => exact sampleKeys_running hr
  case isFalse hr => exact sampleKeys_halted hr

/-! ## The statements about encoding -/

/-- Settles O1, by computing the two sides of each clause. -/
theorem writtenOutWordsDecode : Obligations.WrittenOutWordsDecode := by
  unfold Obligations.WrittenOutWordsDecode
  decide

/-- Settles O3: a word that decodes is not illegal, so it is an instruction's word, and that decodes to one only. -/
theorem decodeThenEncodeGivesTheWord : Obligations.DecodeThenEncodeGivesTheWord := by
  intro w i hi
  obtain hill | ⟨j, hwf, rfl⟩ := illegal_or_encoding w
  · cases (decodeWord_illegal hill).symm.trans hi
  · cases (decodeWord_encode hwf).symm.trans hi
    exact ⟨hwf, rfl⟩

/-- Settles O4: outside family 0 every row that selects the word builds what the word decodes to, and a word that no
row selects is no instruction's. -/
theorem decoderAgreesWithTheOpcodeMap : Obligations.DecoderAgreesWithTheOpcodeMap := by
  intro w
  by_cases hop : fieldOp w = 0x0
  · exact (decodeByTable_family0 hop).symm
  rw [decodeByTable]
  cases hfind : opcodeTable.find? (fun r => w &&& r.mask == r.value) with
  | some r =>
    have hsel : w &&& r.mask = r.value := by simpa using List.find?_some hfind
    exact opcodeTable_decodes r (List.mem_of_find?_eq_some hfind) w hsel hop
  | none =>
    obtain hill | ⟨i, -, rfl⟩ := illegal_or_encoding w
    · exact decodeWord_illegal hill
    · obtain ⟨r, hr, hsel⟩ := row_selects_encode i
      exact absurd (beq_iff_eq.2 hsel) (List.find?_eq_none.1 hfind r (List.mem_of_getElem? hr))

/-- Settles O5: an illegal word falls through its family; every other word is an instruction's. -/
theorem illegalWordsAreExactlyThoseListed : Obligations.IllegalWordsAreExactlyThoseListed := by
  refine fun w => ⟨decodeWord_illegal, fun hlegal => ?_⟩
  obtain ⟨i, hwf, rfl⟩ := isEncoding_of_not_illegal hlegal
  exact ⟨i, decodeWord_encode hwf⟩

/-- Settles O6: outside family 0 both rows build the instruction that the word decodes to. -/
theorem opcodeRowsOverlapOnlyInFamilyZero : Obligations.OpcodeRowsOverlapOnlyInFamilyZero := by
  intro w r q hr hq hrw hqw
  refine or_iff_not_imp_right.2 fun hop => ?_
  have hbuild : r.build w = q.build w :=
    Except.ok.inj ((opcodeTable_decodes r hr w hrw hop).symm.trans (opcodeTable_decodes q hq w hqw hop))
  rw [← build_mnemonic r hr w, hbuild, build_mnemonic q hq w]

/-- Settles O7: the two bytes are the word that the step fetches. -/
theorem stepRunsTheDecodedInstruction : Obligations.StepRunsTheDecodedInstruction := by
  intro s i hr hpc hi
  obtain ⟨t, ht⟩ := exec_next i s
  have hfetch : s.fetch = some _ := State.fetchAt_eq (by omega)
  refine ⟨t, ht, ?_⟩
  rw [step_instr hr hfetch (decodeWord_of_decodeBytes hi), ht, endCycle_next, sampleKeys_eq]

/-- Settles O9: an illegal word does not decode. -/
theorem illegalWordHaltsTheCore : Obligations.IllegalWordHaltsTheCore :=
  fun _ _ hr hw hill => step_illegal hr hw (decodeWord_illegal hill)

end Sys2Proof.Safety
end

section
/-!
PROOFS. Control transfer (spec/40_flow.md): where each jump, call and return lands and what it does to the stack (R101
to R105). That a return comes back after the call is put together from what the call and the return do.
-/

namespace Sys2Proof

/-! ## The words of families 0 to 2 (R75) -/

section

variable {w : Word}

theorem decodeWord_family0 (hop : fieldOp w = 0x0) (hcls : w ≠ 0x00E0#16) (hret : w ≠ 0x00EE#16) :
    decodeWord w = .ok (.sys (fieldNNN w)) := by
  simp [decodeWord, hop, hcls, hret]

theorem decodeWord_family1 (hop : fieldOp w = 0x1) : decodeWord w = .ok (.jp (fieldNNN w)) := by
  simp [decodeWord, hop]

theorem decodeWord_family2 (hop : fieldOp w = 0x2) : decodeWord w = .ok (.call (fieldNNN w)) := by
  simp [decodeWord, hop]

end

end Sys2Proof

namespace Sys2Proof.Machine

/-! ## The values of the targets (R103 to R105) -/

theorem zext16_toNat {n : Nat} (v : BitVec n) (hn : n ≤ 16) : (zext16 v).toNat = v.toNat :=
  BitVec.toNat_setWidth_of_le hn

theorem target_toNat (nnn : Addr12) : (target nnn).toNat = nnn.toNat := zext16_toNat nnn (by decide)

/-- The largest sum, 0xFF + 0xFFF, fits in 16 bits. -/
theorem offsetTarget_toNat (b : Byte) (nnn : Addr12) : (offsetTarget b nnn).toNat = b.toNat + nnn.toNat := by
  rw [offsetTarget, BitVec.toNat_add, zext16_toNat b (by decide), zext16_toNat nnn (by decide)]
  exact Nat.mod_eq_of_lt (by omega)

/-! ## The checked instructions, by the entries in use (R101, R104) -/

section

variable {s t : State}

theorem exec_call_of_push {nnn : Addr12} (h : s.push (s.pc + 2) = some t) :
    exec (.call nnn) s = .next (t.setPc (target nnn)) := by
  rw [exec_call, h]
  rfl

theorem exec_call_full (nnn : Addr12) (h : s.sp.val = 16) :
    exec (.call nnn) s = raiseIn (.call nnn) .stackOverflow s := by
  rw [exec_call, State.push_full _ h]
  rfl

theorem exec_ret_top (k : Fin 16) (h : s.sp.val = k.val + 1) :
    exec .ret s = .next (State.setPc { s with sp := ⟨k.val, by omega⟩ } (s.stackEntry k)) := by
  rw [exec_ret, State.pop_eq k h]
  rfl

theorem exec_ret_empty (h : s.sp.val = 0) : exec .ret s = raiseIn .ret .stackUnderflow s := by
  rw [exec_ret, State.pop_empty h]
  rfl

end

end Sys2Proof.Machine

namespace Sys2Proof.Safety

open Sys2Proof.Machine

/-! ## The statements about control transfer -/

/-- Settles O25: family 0 decodes to `0NNN` when both exact words are excluded, and `0NNN` is one write of `PC`. -/
theorem legacyCallIsANoOp : Obligations.LegacyCallIsANoOp :=
  ⟨fun _ => decodeWord_family0, fun s _ => ⟨s.advance, rfl, rfl, (Writes.refl s).advance⟩⟩

/-- Settles O26: one write of `PC`. -/
theorem jumpLoadsItsTarget : Obligations.JumpLoadsItsTarget :=
  ⟨fun _ => decodeWord_family1,
    fun s nnn => ⟨s.setPc (target nnn), rfl, target_toNat nnn, (Writes.refl s).setPc _⟩⟩

/-- Settles O27: with room on the stack the push answers, and the jump writes `PC`; with none it raises. -/
theorem callPushesTheReturnAddress : Obligations.CallPushesTheReturnAddress := by
  refine ⟨fun _ => decodeWord_family2, fun s nnn => ⟨fun hfree => ?_, exec_call_full nnn⟩⟩
  obtain ⟨t, ht⟩ := State.push_isSome (s.pc + 2) hfree
  obtain ⟨-, hsp, hentry, -⟩ := State.push_some ht
  exact ⟨t.setPc (target nnn), exec_call_of_push ht, target_toNat nnn, hsp, hentry,
    (writes_of_push ht (by simp)).setPc _⟩

/-- Settles O28: with an entry in use the pop gives the newest one, which goes to `PC`; with none it raises. -/
theorem returnPopsIntoPc : Obligations.ReturnPopsIntoPc :=
  ⟨rfl, fun s => ⟨fun k hk => ⟨_, exec_ret_top k hk, rfl, rfl, fun _ => rfl,
    ((Writes.refl s).setStack (by simp) s.stack _).setPc _⟩, exec_ret_empty⟩⟩

/-- Settles O29: the return pops the entry that was free before the call, and that is the one the call wrote. -/
theorem returnComesBackAfterTheCall : Obligations.ReturnComesBackAfterTheCall := by
  intro s t u nnn hfree ht husp hustack
  obtain ⟨t', ht', -, htsp, htstack, -⟩ := (callPushesTheReturnAddress.2 s nnn).1 hfree
  cases ht'.symm.trans ht
  have hsp : u.sp.val = s.sp.val + 1 := by rw [husp, htsp]
  obtain ⟨v, hv, hvpc, hvsp, hvstack, -⟩ := (returnPopsIntoPc.2 u).1 ⟨s.sp.val, hfree⟩ hsp
  refine ⟨v, hv, ?_, Fin.ext hvsp, fun k hk => ?_⟩
  · rw [hvpc, hustack, htstack, if_pos rfl]
  · rw [hvstack, hustack, htstack, if_neg hk.ne]

/-- Settles O30: one write of `PC`, of a sum that does not wrap. -/
theorem offsetJumpAddsV0 : Obligations.OffsetJumpAddsV0 :=
  fun s nnn => ⟨s.setPc (offsetTarget (s.reg 0) nnn), rfl, offsetTarget_toNat _ nnn, (Writes.refl s).setPc _⟩

end Sys2Proof.Safety
end

section
/-!
PROOFS. The register-compare skips (spec/41_skip.md): the words of families 3, 4, 5 and 9, and the one write of `PC`
that all four make (R110 to R114).
-/

namespace Sys2Proof

/-! ## The words of the skips (R110 to R113) -/

section

variable {w : Word}

theorem decodeWord_family3 (hop : fieldOp w = 0x3) : decodeWord w = .ok (.seImm (fieldX w) (fieldNN w)) := by
  simp [decodeWord, hop]

theorem decodeWord_family4 (hop : fieldOp w = 0x4) : decodeWord w = .ok (.sneImm (fieldX w) (fieldNN w)) := by
  simp [decodeWord, hop]

theorem decodeWord_family5 (hop : fieldOp w = 0x5) (hn : fieldN w = 0x0) :
    decodeWord w = .ok (.seReg (fieldX w) (fieldY w)) := by
  simp [decodeWord, hop, hn]

theorem decodeWord_family9 (hop : fieldOp w = 0x9) (hn : fieldN w = 0x0) :
    decodeWord w = .ok (.sneReg (fieldX w) (fieldY w)) := by
  simp [decodeWord, hop, hn]

end

end Sys2Proof

namespace Sys2Proof.Safety

open Sys2Proof.Machine

/-! ## The conditional skip (R114) -/

/-- A conditional skip on the test `c` adds 4 to `PC` under a condition `p` that makes `c` true and 2 under a condition
`q` that makes it false, and writes nothing else. -/
theorem skipIf_moves_pc {s : State} {c : Bool} {p q : Prop} (hp : p → c = true) (hq : q → c = false) :
    ∃ t, Host.Outcome.next (s.skipIf c) = (.next t : StepResult) ∧ (p → t.pc = s.pc + 4) ∧ (q → t.pc = s.pc + 2) ∧
      SameRegsExcept [] s t ∧ SameExcept [] s t := by
  refine ⟨s.skipIf c, rfl, fun h => ?_, fun h => ?_, (Writes.refl s).skipIf c⟩
  · rw [State.skipIf_pc, hp h, if_pos rfl]
  · rw [State.skipIf_pc, hq h, if_neg Bool.false_ne_true]

/-! ## The statement about the skips -/

/-- Settles O31: each of the four is a conditional skip on its comparison, and the words of families 5 and 9 that are
not these instructions are illegal. -/
theorem compareSkipsMovePcByFourOrTwo : Obligations.CompareSkipsMovePcByFourOrTwo := by
  refine ⟨fun w => ⟨decodeWord_family3, decodeWord_family4, decodeWord_family5, fun hop hn => ?_, decodeWord_family9,
    fun hop hn => ?_⟩, fun s x y nn => ⟨?_, ?_, ?_, ?_⟩⟩
  · exact decodeWord_illegal (.inl ⟨hop, hn⟩)
  · exact decodeWord_illegal (.inr (.inr (.inl ⟨hop, hn⟩)))
  · exact skipIf_moves_pc beq_iff_eq.2 beq_eq_false_iff_ne.2
  · exact skipIf_moves_pc bne_iff_ne.2 bne_eq_false_iff_eq.2
  · exact skipIf_moves_pc beq_iff_eq.2 beq_eq_false_iff_ne.2
  · exact skipIf_moves_pc bne_iff_ne.2 bne_eq_false_iff_eq.2

end Sys2Proof.Safety
end

section
/-!
PROOFS. Register load, arithmetic, logic, shift, random (spec/42_alu.md): the result and the flag of each operation as
numbers (R121, R126 to R130), and the one or two register writes that all of these instructions make (R120 to R132).
-/

namespace Sys2Proof

/-! ## Decoding a word that an instruction encodes to (R72, R75) -/

/-- A word whose fields make it the word of an instruction decodes to that instruction. -/
theorem decodeWord_of_encode_eq {w : Word} {i : Instr} (hi : i.wellFormed = true) (h : encode i = w) :
    decodeWord w = .ok i :=
  h ▸ decodeWord_encode hi

end Sys2Proof

namespace Sys2Proof.Machine

/-! ## Results and flags as numbers (R126 to R130) -/

theorem flagByte_toNat (b : Bool) : (flagByte b).toNat = b.toNat := by
  cases b <;> rfl

/-- A bit as the number it is worth. -/
theorem toNat_getLsbD {n : Nat} (v : BitVec n) (k : Nat) : (v.getLsbD k).toNat = v.toNat / 2 ^ k % 2 :=
  Nat.toNat_testBit v.toNat k

/-- Two bytes add up to less than 512, so 9 bits hold the sum. -/
theorem sum9_toNat (a b : Byte) : (sum9 a b).toNat = a.toNat + b.toNat := by
  rw [sum9, BitVec.toNat_add, BitVec.toNat_setWidth_of_le (by decide), BitVec.toNat_setWidth_of_le (by decide)]
  exact Nat.mod_eq_of_lt (by omega)

theorem addResult_toNat (a b : Byte) : (addResult a b).toNat = (a.toNat + b.toNat) % 256 := by
  rw [addResult, BitVec.extractLsb'_toNat, sum9_toNat]
  rfl

theorem carryOut_toNat (a b : Byte) : (carryOut a b).toNat = (a.toNat + b.toNat) / 256 := by
  rw [carryOut, toNat_getLsbD, sum9_toNat]
  omega

theorem subResult_toNat (a b : Byte) : (subResult a b).toNat = (a.toNat + 256 - b.toNat) % 256 := by
  rw [subResult, BitVec.toNat_sub]
  omega

theorem shrResult_toNat (a : Byte) : (shrResult a).toNat = a.toNat / 2 := by
  rw [shrResult, BitVec.toNat_setWidth_of_le (by decide), BitVec.extractLsb'_toNat, Nat.shiftRight_eq_div_pow]
  omega

theorem shrOut_toNat (a : Byte) : (shrOut a).toNat = a.toNat % 2 := by
  rw [shrOut, toNat_getLsbD, Nat.pow_zero, Nat.div_one]

theorem shlResult_toNat (a : Byte) : (shlResult a).toNat = 2 * a.toNat % 256 := by
  calc (shlResult a).toNat = (a.toNat % 2 ^ 7) <<< 1 := by
        rw [shlResult, BitVec.toNat_append, BitVec.extractLsb'_toNat]
        exact Nat.or_zero _
    _ = 2 * a.toNat % 256 := by omega

theorem shlOut_toNat (a : Byte) : (shlOut a).toNat = a.toNat / 128 := by
  rw [shlOut, toNat_getLsbD]
  omega

section

variable {a b : Byte}

theorem flagByte_carryOut_of_gt (h : 255 < a.toNat + b.toNat) : flagByte (carryOut a b) = 0x01 := by
  apply BitVec.eq_of_toNat_eq
  rw [flagByte_toNat, carryOut_toNat]
  show _ / 256 = 1
  omega

theorem flagByte_carryOut_of_le (h : a.toNat + b.toNat ≤ 255) : flagByte (carryOut a b) = 0x00 := by
  apply BitVec.eq_of_toNat_eq
  rw [flagByte_toNat, carryOut_toNat]
  exact Nat.div_eq_of_lt (Nat.lt_succ_of_le h)

theorem flagByte_notBorrow_of_le (h : b.toNat ≤ a.toNat) : flagByte (notBorrow a b) = 0x01 := by
  rw [notBorrow, decide_eq_true h]
  rfl

theorem flagByte_notBorrow_of_lt (h : a.toNat < b.toNat) : flagByte (notBorrow a b) = 0x00 := by
  rw [notBorrow, decide_eq_false h.not_ge]
  rfl

end

/-! ## The result before the flag (R132) -/

/-- Outside `VF` the result is not written over by the flag. -/
theorem State.setRegThenFlag_result (s : State) (b : Byte) (f : Bool) {x : RegIx} (hx : x ≠ 15) :
    (s.setRegThenFlag x b f).reg x = b := by
  rw [State.setRegThenFlag_reg, if_neg hx, if_pos rfl]

end Sys2Proof.Machine

namespace Sys2Proof.Safety

open Sys2Proof.Machine

/-! ## One register, or a result and then a flag -/

section

variable (s : State) (x : RegIx) (b : Byte) (f : Bool)

theorem writes_setReg_advance : Writes [x] [] s (s.setReg x b).advance :=
  ((Writes.refl s).setReg (by simp) b).advance

theorem writes_setRegThenFlag_advance : Writes [x, 15] [] s (s.setRegThenFlag x b f).advance :=
  ((Writes.refl s).setRegThenFlag (by simp) (by simp [flagReg]) b f).advance

end

/-- The difference of any two bytes to a register and its not-borrow flag to `VF`, which is what both subtractions do
(R127, R129). -/
theorem setRegThenFlag_subtracts (s : State) (x : RegIx) (a b : Byte) :
    ∃ t, Host.Outcome.next (s.setRegThenFlag x (subResult a b) (notBorrow a b)).advance = (.next t : StepResult) ∧
      (x ≠ 15 → (t.reg x).toNat = (a.toNat + 256 - b.toNat) % 256) ∧
      (b.toNat ≤ a.toNat → t.reg 15 = 0x01) ∧ (a.toNat < b.toNat → t.reg 15 = 0x00) ∧
      t.pc = s.pc + 2 ∧ SameRegsExcept [x, 15] s t ∧ SameExcept [] s t := by
  refine ⟨_, rfl, fun hx => ?_, fun h => ?_, fun h => ?_, rfl, writes_setRegThenFlag_advance s x _ _⟩
  · rw [State.advance_reg, State.setRegThenFlag_result s _ _ hx, subResult_toNat]
  · rw [State.advance_reg, State.setRegThenFlag_flag, flagByte_notBorrow_of_le h]
  · rw [State.advance_reg, State.setRegThenFlag_flag, flagByte_notBorrow_of_lt h]

/-! ## The statements about register load, arithmetic, logic, shift and random -/

/-- Settles O32: one register write, of a sum that wraps. -/
theorem addImmediateWrapsWithoutCarry : Obligations.AddImmediateWrapsWithoutCarry := by
  refine ⟨fun _ hop => decodeWord_of_encode_eq rfl (formXNN_fields hop),
    fun s x nn => ⟨_, rfl, ?_, rfl, writes_setReg_advance s x _⟩⟩
  rw [State.advance_reg, State.setReg_reg_self, BitVec.toNat_add]

/-- Settles O33: one register write each. -/
theorem loadsWriteOnlyTheirRegister : Obligations.LoadsWriteOnlyTheirRegister :=
  fun s x y nn =>
    ⟨⟨_, rfl, State.setReg_reg_self s x nn, rfl, writes_setReg_advance s x nn⟩,
      ⟨_, rfl, State.setReg_reg_self s x (s.reg y), rfl, writes_setReg_advance s x (s.reg y)⟩⟩

/-- Settles O34: one register write each, of a value whose bits are known. -/
theorem logicOperationsAreBitwise : Obligations.LogicOperationsAreBitwise := by
  refine fun s x y => ⟨⟨_, rfl, fun k => ?_, rfl, writes_setReg_advance s x _⟩,
    ⟨_, rfl, fun k => ?_, rfl, writes_setReg_advance s x _⟩, ⟨_, rfl, fun k => ?_, rfl, writes_setReg_advance s x _⟩⟩
  · rw [State.advance_reg, State.setReg_reg_self, BitVec.getLsbD_or]
  · rw [State.advance_reg, State.setReg_reg_self, BitVec.getLsbD_and]
  · rw [State.advance_reg, State.setReg_reg_self, BitVec.getLsbD_xor]

/-- Settles O35: the 9-bit sum has the result in its low byte and the carry in its top bit. -/
theorem addRegistersSetsCarry : Obligations.AddRegistersSetsCarry := by
  refine ⟨fun _ hop hn => decodeWord_of_encode_eq rfl (formXY_fields hop hn), fun s x y =>
    ⟨_, rfl, fun hx => ?_, fun h => ?_, fun h => ?_, rfl, writes_setRegThenFlag_advance s x _ _⟩⟩
  · rw [State.advance_reg, State.setRegThenFlag_result s _ _ hx, addResult_toNat]
  · rw [State.advance_reg, State.setRegThenFlag_flag, flagByte_carryOut_of_gt h]
  · rw [State.advance_reg, State.setRegThenFlag_flag, flagByte_carryOut_of_le h]

/-- Settles O36: one subtraction, with the operands in either order. -/
theorem subtractionsSetNotBorrow : Obligations.SubtractionsSetNotBorrow :=
  ⟨fun _ hop => ⟨fun hn => decodeWord_of_encode_eq rfl (formXY_fields hop hn),
    fun hn => decodeWord_of_encode_eq rfl (formXY_fields hop hn)⟩,
    fun s x y => ⟨setRegThenFlag_subtracts s x (s.reg x) (s.reg y), setRegThenFlag_subtracts s x (s.reg y) (s.reg x)⟩⟩

/-- Settles O37: a shift is a division or a product by 2, and the bit shifted out is its remainder or its overflow. -/
theorem shiftsMoveOneBitIntoVf : Obligations.ShiftsMoveOneBitIntoVf := by
  refine ⟨fun _ hop => ⟨fun hn => decodeWord_of_encode_eq rfl (formXY_fields hop hn),
    fun hn => decodeWord_of_encode_eq rfl (formXY_fields hop hn)⟩, fun s x y =>
    ⟨⟨_, rfl, fun hx => ?_, ?_, rfl, writes_setRegThenFlag_advance s x _ _⟩,
      ⟨_, rfl, fun hx => ?_, ?_, rfl, writes_setRegThenFlag_advance s x _ _⟩⟩⟩
  · rw [State.advance_reg, State.setRegThenFlag_result s _ _ hx, shrResult_toNat]
  · rw [State.advance_reg, State.setRegThenFlag_flag, flagByte_toNat, shrOut_toNat]
  · rw [State.advance_reg, State.setRegThenFlag_result s _ _ hx, shlResult_toNat]
  · rw [State.advance_reg, State.setRegThenFlag_flag, flagByte_toNat, shlOut_toNat]

/-- Settles O38: one byte is drawn, and its AND with `NN` is the one register write; a bit clear in `NN` is clear in the
AND. -/
theorem randomByteIsMasked : Obligations.RandomByteIsMasked := by
  intro s x nn
  have hreg : (s.drawRandom.setReg x (s.randByte &&& nn)).advance.reg x = Config.randByte s.rngDrawn &&& nn :=
    State.setReg_reg_self s.drawRandom x _
  refine ⟨_, rfl, hreg, fun k hk => ?_, rfl, rfl,
    (((Writes.refl s).drawRandom (by simp)).setReg (by simp) _).advance⟩
  rw [hreg, BitVec.getLsbD_and, hk, Bool.and_false]

end Sys2Proof.Safety
end

section
/-!
PROOFS. Index register and memory transfer (spec/43_index_memory.md): the values that go to `I`, the digits and the
registers in a run of bytes, and each checked transfer where its check passes (R140 to R146). The round trip is
put together from what the store and the load do.
-/

namespace Sys2Proof.Machine

/-! ## Values as numbers (R141, R142) -/

/-- 0x1000 divides 0x10000, so the sum may wrap at 16 bits before it is reduced. -/
theorem indexSum_toNat (i : Word) (b : Byte) : (indexSum i b).toNat = (i.toNat + b.toNat) % 0x1000 := by
  rw [indexSum, BitVec.toNat_umod, BitVec.toNat_add, zext16_toNat b (by decide)]
  exact Nat.mod_mod_of_dvd _ (by decide)

theorem glyphAddress_toNat (d : Fin 16) : (glyphAddress d).toNat = 5 * d.val := by
  rw [glyphAddress, BitVec.toNat_ofNat]
  exact Nat.mod_eq_of_lt (by omega)

/-! ## What a run of bytes holds (R143, R145) -/

/-- Byte `k` of the run is read at `k` above its start. -/
theorem Memory.read_writeRun_inside (m : Memory) (a : Nat) {bs : List Byte} {k : Nat} (hk : k < bs.length) :
    (m.writeRun a bs).read (a + k) = bs.getD k 0 := by
  rw [Memory.read_writeRun, if_pos (by omega), Nat.add_sub_cancel_left]

/-- Each digit fits in its byte. -/
theorem Memory.read_writeRun_decimalDigits (m : Memory) (a : Nat) (b : Byte) :
    ((m.writeRun a (decimalDigits b)).read a).toNat = b.toNat / 100 ∧
      ((m.writeRun a (decimalDigits b)).read (a + 1)).toNat = b.toNat / 10 % 10 ∧
      ((m.writeRun a (decimalDigits b)).read (a + 2)).toNat = b.toNat % 10 := by
  have hread {k n : Nat} (hk : k < 3) (hn : n < 2 ^ 8) (hdigit : (decimalDigits b).getD k 0 = BitVec.ofNat 8 n) :
      ((m.writeRun a (decimalDigits b)).read (a + k)).toNat = n := by
    rw [Memory.read_writeRun_inside m a hk, hdigit, BitVec.toNat_ofNat, Nat.mod_eq_of_lt hn]
  exact ⟨hread (k := 0) (by decide) (by omega) rfl, hread (by decide) (by omega) rfl,
    hread (by decide) (by omega) rfl⟩

/-- The registers after `X + 1` bytes of memory are loaded: those up to `X` from memory, the others as before. -/
theorem State.setRegsFrom0_readRun_reg (s : State) (m : Memory) (a : Nat) (x r : RegIx) :
    (s.setRegsFrom0 (m.readRun a (countTo x))).reg r = if r ≤ x then m.read (a + r.val) else s.reg r := by
  have hcount : r.val < countTo x ↔ r ≤ x := Nat.lt_succ_iff
  rw [State.setRegsFrom0_reg, Memory.length_readRun]
  exact ite_congr (propext hcount) (fun hr => Memory.getD_readRun m a _ _ 0 (hcount.2 hr)) fun _ => rfl

/-! ## The checked instructions, where the check passes or fails (R142, R143, R145) -/

section

variable {s : State}

theorem exec_ldF_digit {x : RegIx} (d : Fin 16) (hd : (s.reg x).toNat = d.val) :
    exec (.ldF x) s = .next (s.setI (glyphAddress d)).advance := by
  rw [exec_ldF, tableIndex?_eq d hd]
  rfl

theorem exec_ldF_no_digit {x : RegIx} (h : 0x0F < (s.reg x).toNat) :
    exec (.ldF x) s = raiseIn (.ldF x) .outOfBounds s := by
  rw [exec_ldF, tableIndex?_none.2 h]
  rfl

theorem exec_ldB_fits (x : RegIx) (hfont : 0x0050 ≤ baseOf s.i) (hend : baseOf s.i ≤ 0x0FFD) :
    exec (.ldB x) s = .next (s.setMem (s.mem.writeRun (baseOf s.i) (decimalDigits (s.reg x)))).advance := by
  rw [exec_ldB, State.storeRun_eq ⟨hfont, by rw [length_decimalDigits]; omega⟩]
  rfl

theorem exec_ldVxMem_fits (x : RegIx) (hend : baseOf s.i + x.val ≤ 0x0FFF) :
    exec (.ldVxMem x) s = .next (s.setRegsFrom0 (s.mem.readRun (baseOf s.i) (countTo x))).advance := by
  rw [exec_ldVxMem, State.loadRun_eq (.inr (by rw [countTo]; omega))]
  rfl

end

end Sys2Proof.Machine

namespace Sys2Proof.Safety

open Sys2Proof.Machine

/-! ## One write of `I`, or one run of bytes -/

section

variable (s : State)

theorem writes_setI_advance (a : Word) : Writes [] [.index] s (s.setI a).advance :=
  ((Writes.refl s).setI (by simp) a).advance

theorem writes_setMem_advance (m : Memory) : Writes [] [.memory] s (s.setMem m).advance :=
  ((writesOnly_setMem s m).writes (by simp)).advance

theorem sameMemoryOutside_writeRun (a : Nat) (bs : List Byte) :
    SameMemoryOutside a bs.length s (s.setMem (s.mem.writeRun a bs)).advance :=
  fun _ hb => Memory.read_writeRun_outside bs s.mem hb

end

/-! ## The statements about the index register -/

/-- Settles O39: one write of `I`. -/
theorem loadIndexSetsI : Obligations.LoadIndexSetsI :=
  ⟨fun _ hop => decodeWord_of_encode_eq rfl (formNNN_fields hop),
    fun s nnn => ⟨_, rfl, target_toNat nnn, rfl, writes_setI_advance s _⟩⟩

/-- Settles O40: one write of `I`, of the reduced sum. -/
theorem addToIndexWrapsInTheAddressSpace : Obligations.AddToIndexWrapsInTheAddressSpace :=
  fun s x => ⟨_, rfl, indexSum_toNat s.i (s.reg x), rfl, writes_setI_advance s _⟩

/-- Settles O41: with a digit in `V[X]` the one write is of `I`; with none the instruction raises. -/
theorem fontLookupPointsAtTheGlyph : Obligations.FontLookupPointsAtTheGlyph := by
  refine fun s x => ⟨fun h => ?_, exec_ldF_no_digit⟩
  let d : Fin 16 := ⟨(s.reg x).toNat, Nat.lt_succ_of_le h⟩
  exact ⟨_, exec_ldF_digit d rfl, glyphAddress_toNat d, rfl, writes_setI_advance s _⟩

/-! ## The statements about memory transfer -/

/-- Settles O42: the three digits are one run of bytes. -/
theorem decimalDigitsAreStored : Obligations.DecimalDigitsAreStored := by
  intro s x hfont hend
  obtain ⟨hhundreds, htens, hones⟩ := Memory.read_writeRun_decimalDigits s.mem (baseOf s.i) (s.reg x)
  exact ⟨_, exec_ldB_fits x hfont hend, hhundreds, htens, hones,
    sameMemoryOutside_writeRun s (baseOf s.i) (decimalDigits (s.reg x)), rfl, writes_setMem_advance s _⟩

/-- Settles O43: the registers up to `X` are one run of bytes. -/
theorem registersAreStoredUpToX : Obligations.RegistersAreStoredUpToX := by
  refine fun s x hfont hend =>
    ⟨_, exec_ldMemVx_fits x hfont hend, fun r hr => ?_, ?_, rfl, writes_setMem_advance s _⟩
  · exact Memory.read_writeRun_registersTo s.mem _ s.v hr
  · rw [← length_registersTo x s.v]
    exact sameMemoryOutside_writeRun s _ _

/-- Settles O44: the registers are loaded from one run of bytes, and no other piece is written. -/
theorem registersAreLoadedUpToX : Obligations.RegistersAreLoadedUpToX := by
  refine fun s x hend => ⟨_, exec_ldVxMem_fits x hend, fun r hr => ?_, fun r hr => ?_, rfl, ?_⟩
  · rw [State.advance_reg, State.setRegsFrom0_readRun_reg, if_pos hr, State.byteAt]
  · rw [State.advance_reg, State.setRegsFrom0_readRun_reg, if_neg hr.not_ge]
  · exact ((Writes.refl s (rs := List.finRange 16)).setRegsFrom0 fun r _ => List.mem_finRange r).advance.2

/-- Settles O45: the store leaves `I` and the registers, so the load reads each register up to `X` from where the store
put it. -/
theorem storeThenLoadRoundTrips : Obligations.StoreThenLoadRoundTrips := by
  intro s x hfont hend
  obtain ⟨t, ht, hstored, -, htpc, htregs, htrest⟩ := registersAreStoredUpToX s x hfont hend
  have hti : t.i = s.i := htrest .index (by simp)
  obtain ⟨u, hu, hloaded, hkept, hupc, hurest⟩ := registersAreLoadedUpToX t x (by rwa [hti])
  refine ⟨t, u, ht, hu, fun r _ => ?_, (hurest .index (by simp)).trans hti, by rw [hupc, htpc],
    fun p hp => Piece.same_trans (htrest p hp) (hurest p (by simp))⟩
  obtain hr | hr := le_or_gt r x
  · rw [hloaded r hr, hti, hstored r hr]
  · rw [hkept r hr, htregs r (by simp)]

end Sys2Proof.Safety
end

section
/-!
PROOFS. Display (spec/44_display.md): the pixels under a sprite in memory, what `DXYN` draws where its sprite bytes
are in memory (R150 to R152), and two draws of one sprite, put together from what one draw does.
-/

namespace Sys2Proof.Machine

/-! ## The drawing, where its sprite bytes are in memory (R152) -/

theorem exec_drw_fits {s : State} (x y : RegIx) {n : Nibble} (h : n = 0 ∨ baseOf s.i + n.toNat ≤ 0x1000) :
    exec (.drw x y n) s = .next (s.drawn x y (s.mem.readRun (baseOf s.i) n.toNat)) := by
  rw [exec_drw, State.loadRun_eq (h.imp_left (congrArg BitVec.toNat))]
  rfl

theorem State.drawn_flag (s : State) (x y : RegIx) (bs : List Byte) :
    (s.drawn x y bs).reg 15 = flagByte (s.fb.draw (startCol (s.reg x)) (startRow (s.reg y)) bs).collision :=
  State.setReg_reg_self _ flagReg _

end Sys2Proof.Machine

namespace Sys2Proof.Safety

open Sys2Proof.Machine

/-! ## The pixels under a sprite (R151, R152) -/

/-- The pixels that a drawing of the sprite bytes at `I` flips are those under the sprite: a start position counts
around the edges, and byte `r` of the run is the byte at `I + r`. -/
theorem spriteSet_readRun (s : State) (vx vy : Byte) (n : Nat) (px : Col) (py : Row) :
    spriteSet (startCol vx) (startRow vy) (s.mem.readRun (baseOf s.i) n) px py =
      underSprite s vx.toNat vy.toNat n px py := by
  simp only [spriteSet, underSprite, startCol, startRow, Nat.mod_mod, Memory.length_readRun]
  by_cases hr : (py.val + 32 - vy.toNat % 32) % 32 < n
  · rw [Memory.getD_readRun _ _ _ _ _ hr]
    rfl
  · simp only [hr, decide_false, Bool.and_false, Bool.false_and]

/-- The pixels under a sprite depend on `I` and memory only. -/
theorem underSprite_congr {s t : State} (hi : t.i = s.i) (hmem : ∀ a, t.byteAt a = s.byteAt a) (x0 y0 n : Nat) :
    underSprite t x0 y0 n = underSprite s x0 y0 n := by
  funext px py
  rw [underSprite, underSprite, hi, hmem]

theorem writes_drawn (s : State) (x y : RegIx) (bs : List Byte) : Writes [15] [.screen] s (s.drawn x y bs) :=
  (((Writes.refl s).setFb (by simp) _).setReg (by simp [flagReg]) _).advance

/-! ## The statements about the framebuffer -/

/-- Settles O48: a drawing flips the set of pixels under the sprite, and its flag is written last. -/
theorem drawXorsTheSprite : Obligations.DrawXorsTheSprite := by
  intro s x y n h
  have hlen : (s.mem.readRun (baseOf s.i) n.toNat).length ≤ 32 := by
    rw [Memory.length_readRun]
    omega
  obtain ⟨hpixel, hcollision⟩ :=
    s.fb.draw_flips (startCol (s.reg x)) (startRow (s.reg y)) (s.mem.readRun (baseOf s.i) n.toNat) hlen
  simp only [spriteSet_readRun] at hpixel hcollision
  refine ⟨_, exec_drw_fits x y h, hpixel, fun hset => ?_, fun hclear => ?_, rfl, writes_drawn s x y _⟩
  · rw [State.drawn_flag, hcollision.2 hset]
    rfl
  · rw [State.drawn_flag, Bool.eq_false_iff.2 (mt hcollision.1 hclear)]
    rfl

/-- Settles O49: the first draw leaves the coordinates and the sprite, so the second flips the same pixels back, and
meets a set pixel exactly where the first met a clear one. -/
theorem drawingTwiceRestoresTheScreen : Obligations.DrawingTwiceRestoresTheScreen := by
  intro s x y n hx hy h
  obtain ⟨t, ht, htpixel, -, -, -, htregs, htrest⟩ := drawXorsTheSprite s x y n h
  have hti : t.i = s.i := htrest .index (by simp)
  obtain ⟨u, hu, hupixel, huset, huclear, -, huregs, hurest⟩ := drawXorsTheSprite t x y n (by rwa [hti])
  have hunder := underSprite_congr hti (htrest .memory (by simp))
  rw [htregs x (by simpa using hx), htregs y (by simpa using hy), hunder] at hupixel huset huclear
  have hmeets : (∃ (px : Col) (py : Row), underSprite s (s.reg x).toNat (s.reg y).toNat n.toNat px py = true ∧
        t.fb.pixel px py = true) ↔
      ∃ (px : Col) (py : Row), underSprite s (s.reg x).toNat (s.reg y).toNat n.toNat px py = true ∧
        s.fb.pixel px py = false :=
    exists₂_congr fun px py => and_congr_right fun hpx => by rw [htpixel, hpx, Bool.xor_true, Bool.not_eq_true']
  refine ⟨t, u, ht, hu, fun p _ => ?_, fun r hr => (huregs r hr).trans (htregs r hr), ?_, ?_⟩
  · cases p with
    | screen => exact fun px py => by rw [hupixel, htpixel, Bool.xor_assoc, Bool.xor_self, Bool.xor_false]
    | _ => exact Piece.same_trans (htrest _ (by simp)) (hurest _ (by simp))
  · exact fun hclear => huset (hmeets.2 hclear)
  · exact fun hnone => huclear (mt hmeets.1 hnone)

/-- Settles O47: one write of the framebuffer. -/
theorem clearBlanksTheScreen : Obligations.ClearBlanksTheScreen :=
  ⟨decodeWord_encode (i := .cls) rfl,
    fun s => ⟨_, rfl, Framebuffer.pixel_blank, rfl, ((Writes.refl s).setFb (by simp) Framebuffer.blank).advance⟩⟩

end Sys2Proof.Safety
end

section
/-!
PROOFS. Keypad and timers (spec/45_keypad_timers.md): the key instructions, by whether the check of the key passes and
by whether a key went down (R160, R161, R163), and the one write of each timer transfer (R162, R164, R165).
-/

namespace Sys2Proof.Machine

section

variable {s : State}

/-! ## The key skips, where `V[X]` is a key or is none (R160, R161) -/

theorem exec_skp_key {x : RegIx} (k : KeyIx) (hk : (s.reg x).toNat = k.val) :
    exec (.skp x) s = .next (s.skipIf (s.key k)) := by
  rw [exec_skp, tableIndex?_eq k hk]
  rfl

theorem exec_sknp_key {x : RegIx} (k : KeyIx) (hk : (s.reg x).toNat = k.val) :
    exec (.sknp x) s = .next (s.skipIf (!s.key k)) := by
  rw [exec_sknp, tableIndex?_eq k hk]
  rfl

theorem exec_skp_no_key {x : RegIx} (h : 0x0F < (s.reg x).toNat) :
    exec (.skp x) s = raiseIn (.skp x) .outOfBounds s := by
  rw [exec_skp, tableIndex?_none.2 h]
  rfl

theorem exec_sknp_no_key {x : RegIx} (h : 0x0F < (s.reg x).toNat) :
    exec (.sknp x) s = raiseIn (.sknp x) .outOfBounds s := by
  rw [exec_sknp, tableIndex?_none.2 h]
  rfl

/-! ## The wait for a key (R163) -/

/-- A key that is up, or was down already, did not go down. -/
theorem State.not_newlyPressed {k : KeyIx} (h : s.key k = true → s.keyPrev k = true) : s.newlyPressed k = false := by
  rw [Bool.eq_false_iff, ne_eq, State.newlyPressed_iff]
  rintro ⟨hdown, hprev⟩
  exact Bool.false_ne_true (hprev.symm.trans (h hdown))

theorem exec_ldVxK_lowest (x : RegIx) (k : KeyIx) (hk : s.newlyPressed k = true)
    (hlow : ∀ j < k, s.newlyPressed j = false) :
    exec (.ldVxK x) s = .next (s.setReg x (BitVec.ofNat 8 k.val)).advance := by
  rw [exec_ldVxK, State.newKey?_eq k hk hlow]
  rfl

theorem exec_ldVxK_waits (x : RegIx) (h : ∀ k, s.newlyPressed k = false) : exec (.ldVxK x) s = .next s := by
  rw [exec_ldVxK, State.newKey?_none.2 h]
  rfl

/-- A key number fits in a byte. -/
theorem ofNat_key_toNat (k : KeyIx) : (BitVec.ofNat 8 k.val).toNat = k.val := by
  rw [BitVec.toNat_ofNat]
  exact Nat.mod_eq_of_lt (by omega)

/-! ## The sound line (R226) -/

theorem State.soundActive_iff : s.soundActive = true ↔ s.st ≠ 0x00 := bne_iff_ne

end

end Sys2Proof.Machine

namespace Sys2Proof.Safety

open Sys2Proof.Machine

/-! ## The statements about the keypad -/

/-- Settles O51: the keys below the lowest new one did not go down, so that one is reported; with no new key the
instruction waits in place. -/
theorem waitForKeyTakesTheLowestNewKey : Obligations.WaitForKeyTakesTheLowestNewKey := by
  refine fun s x => ⟨fun k hdown hprev hlow => ?_, fun hnone => ?_⟩
  · have hk : s.newlyPressed k = true := (s.newlyPressed_iff k).2 ⟨hdown, hprev⟩
    have hbelow : ∀ j < k, s.newlyPressed j = false := fun j hj => State.not_newlyPressed (hlow j hj)
    refine ⟨_, exec_ldVxK_lowest x k hk hbelow, ?_, rfl, writes_setReg_advance s x _⟩
    rw [State.advance_reg, State.setReg_reg_self, ofNat_key_toNat]
  · exact exec_ldVxK_waits x fun k => State.not_newlyPressed (hnone k)

/-- Settles O50: with a key in `V[X]` each of the two is a conditional skip on its level; with none it raises. -/
theorem keySkipsTestTheLevel : Obligations.KeySkipsTestTheLevel := by
  refine fun s x => ⟨fun k hk => ⟨?_, ?_⟩, fun h => ⟨exec_skp_no_key h, exec_sknp_no_key h⟩⟩
  · rw [exec_skp_key k hk]
    exact skipIf_moves_pc id id
  · rw [exec_sknp_key k hk]
    exact skipIf_moves_pc (Bool.not_eq_true' _).mpr (Bool.not_eq_false' _).mpr

/-! ## The statement about the timer transfers -/

/-- Settles O52: one write each, of a register or of a timer. -/
theorem timerTransfersCopyOneByte : Obligations.TimerTransfersCopyOneByte :=
  ⟨fun _ hop => ⟨fun hnn => decodeWord_of_encode_eq rfl (formX_fields hop hnn),
      fun hnn => decodeWord_of_encode_eq rfl (formX_fields hop hnn),
      fun hnn => decodeWord_of_encode_eq rfl (formX_fields hop hnn)⟩,
    fun s x => ⟨⟨_, rfl, State.setReg_reg_self s x s.dt, rfl, writes_setReg_advance s x s.dt⟩,
      ⟨_, rfl, rfl, rfl, ((writesOnly_setDt s (s.reg x)).writes (List.Subset.refl _)).advance⟩,
      ⟨_, rfl, rfl, State.soundActive_iff, rfl,
        ((writesOnly_setSt s (s.reg x)).writes (List.Subset.refl _)).advance⟩⟩⟩

end Sys2Proof.Safety
end

section
/-!
PROOFS. Fatal errors and timers (spec/60_exceptions.md): a step of a running core that ends halted wrote its report to
`STATUS` and nothing else (R201 to R207), and a run of ticks counts each timer down on its own (R221, R222).
-/

namespace Sys2Proof.Machine

/-! ## The timers (R221, R222) -/

theorem countDown_of_eq_zero {b : Byte} (h : b = 0) : countDown b = 0 := (if_pos h).trans h

theorem countDown_toNat_add_one {b : Byte} (h : b ≠ 0) : (countDown b).toNat + 1 = b.toNat := by
  have hpos : b.toNat ≠ 0 := BitVec.toNat_ne.1 h
  rw [countDown_toNat]
  exact Nat.sub_one_add_one hpos

theorem countDown_iterate_toNat (n : Nat) (b : Byte) : (countDown^[n] b).toNat = b.toNat - n := by
  induction n with
  | zero => rfl
  | succ n ih => rw [Function.iterate_succ_apply', countDown_toNat, ih, Nat.sub_sub]

theorem countDown_iterate_eq_zero (n : Nat) (b : Byte) : countDown^[n] b = 0 ↔ b.toNat ≤ n := by
  rw [BitVec.toNat_eq, countDown_iterate_toNat]
  exact Nat.sub_eq_zero_iff_le

/-- Ticks leave a running core running, so each of them counts. -/
theorem tick_iterate_running {s : State} (h : s.status = .running) (n : Nat) :
    tick^[n] s = (s.setDt (countDown^[n] s.dt)).setSt (countDown^[n] s.st) := by
  induction n with
  | zero => rfl
  | succ n ih =>
    simp only [Function.iterate_succ_apply', ih]
    exact tick_running h

end Sys2Proof.Machine

namespace Sys2Proof.Safety

open Sys2Proof.Machine

/-! ## The steps that halt (R205) -/

section

variable {s t : State}

/-- A step of a running core leaves it running, or only writes the report: the `PC` of the instruction and the word
fetched. The word that an instruction's own error records is the one fetched, since decoding it and encoding again
gives it back. -/
theorem step_runs_or_reports (hr : s.status = .running) (ht : step s = .next t) :
    t.status = .running ∨ ∃ kind, t = s.setStatus (.halted kind s.pc s.fetch) := by
  obtain ⟨hn, -⟩ | ⟨-, hw, hs⟩ | ⟨w, e, -, hw, -, hs⟩ | ⟨w, i, -, hw, hd, hs⟩ := step_cases s
  · exact absurd hr hn
  · cases hs.symm.trans ht
    exact .inr ⟨.outOfBounds, by rw [hw]; rfl⟩
  · cases hs.symm.trans ht
    exact .inr ⟨.unsupportedOpcode, by rw [hw]; rfl⟩
  · obtain ⟨-, rfl⟩ := decodeThenEncodeGivesTheWord w i hd
    obtain ⟨kind, -, hraise⟩ | ⟨-, u, hu, hwrites⟩ := exec_raises_or_writes i s
    · rw [hs, hraise, raiseIn_eq, endCycle_next, sampleKeys_halted (by simp)] at ht
      cases ht
      exact .inr ⟨kind, by rw [hw]; rfl⟩
    · have hrun : u.status = .running := hwrites.status_eq.trans hr
      rw [hs, hu, endCycle_next, sampleKeys_running hrun] at ht
      cases ht
      exact .inl hrun

theorem step_report {kind : ErrorKind} {addr : Word} {opcode : Option Word} (hr : s.status = .running)
    (ht : step s = .next t) (hhalt : t.status = .halted kind addr opcode) :
    addr = s.pc ∧ opcode = s.fetch ∧ t = s.setStatus (.halted kind addr opcode) := by
  obtain hrun | ⟨k, rfl⟩ := step_runs_or_reports hr ht
  · cases hrun.symm.trans hhalt
  · cases hhalt
    exact ⟨rfl, rfl, rfl⟩

theorem step_next (s : State) : ∃ t, step s = .next t := by
  by_cases hr : s.status = .running
  · obtain ⟨kind, opcode, hs⟩ | ⟨i, t, -, -, -, hs⟩ := step_raises_or_completes hr
    · exact ⟨_, hs⟩
    · exact ⟨_, hs⟩
  · exact ⟨s, step_halted hr⟩

end

/-! ## The statements about fatal errors -/

/-- Settles O10: the one write is of the report. -/
theorem fatalErrorChangesOnlyStatus : Obligations.FatalErrorChangesOnlyStatus := by
  intro s t kind addr opcode hr ht hhalt
  obtain ⟨-, -, hreport⟩ := step_report hr ht hhalt
  exact hreport

/-- Settles O11: the report names `PC` and the word fetched, and is what the environment reads. -/
theorem errorReportNamesTheFailingInstruction : Obligations.ErrorReportNamesTheFailingInstruction := by
  intro s t kind addr opcode hr ht hhalt
  obtain ⟨rfl, rfl, rfl⟩ := step_report hr ht hhalt
  exact ⟨rfl, rfl, rfl⟩

/-- Settles O12: an instruction raises what its cause is, or has none and writes no `STATUS`. -/
theorem instructionRaisesExactlyInTheListedCases : Obligations.InstructionRaisesExactlyInTheListedCases := by
  intro i s
  obtain ⟨cause, hcause, hraise⟩ | ⟨hcause, t, ht, hw⟩ := exec_raises_or_writes i s
  · refine ⟨fun kind hkind => ?_, fun hnone => nomatch hcause.symm.trans hnone⟩
    cases hcause.symm.trans hkind
    exact hraise
  · exact ⟨fun kind hkind => (nomatch hcause.symm.trans hkind), fun _ => ⟨t, ht, hw.status_eq⟩⟩

/-- Settles O13: by cases on `STATUS`, and for a running core on the step. -/
theorem everyStepAnswersANextState : Obligations.EveryStepAnswersANextState := step_next

/-! ## The statements about the timers -/

/-- Settles O53: each timer is counted down, and the rest is the frame of the event. -/
theorem tickCountsDownEachTimer : Obligations.TickCountsDownEachTimer := by
  intro s hr
  have hdt : (tick s).dt = countDown s.dt := by rw [tick_running hr]; rfl
  have hst : (tick s).st = countDown s.st := by rw [tick_running hr]; rfl
  rw [hdt, hst]
  exact ⟨countDown_toNat_add_one, countDown_of_eq_zero, countDown_toNat_add_one, countDown_of_eq_zero,
    writesOnly_tick s⟩

/-- Settles O54: after `n` ticks each timer has been counted down `n` times, and the sound line is the sound timer. -/
theorem timersReachZeroAndStay : Obligations.TimersReachZeroAndStay := by
  intro n s hr
  have hst : (tick^[n] s).st = 0 ↔ s.st.toNat ≤ n := by
    rw [tick_iterate_running hr]
    exact countDown_iterate_eq_zero n s.st
  refine ⟨?_, hst, State.soundActive_iff.trans ((not_congr hst).trans Nat.not_le)⟩
  rw [tick_iterate_running hr]
  exact countDown_iterate_eq_zero n s.dt

end Sys2Proof.Safety
end

section
/-!
PROOFS. The scheduler loop as sequences of events, and the proof of the statement about it (spec/70_reset_and_hazards.md,
rule R256).
-/

namespace Sys2Proof.Machine

/-! ## The runs of steps, ticks and key events (R256) -/

/-- The events that the loop issues. -/
def Event.IsScheduled (e : Event) : Prop := e = .step ∨ e = .tick ∨ ∃ k b, e = .keySet k b

theorem Event.IsScheduled.ne_quit {e : Event} (h : e.IsScheduled) : e ≠ .quit := by
  obtain rfl | rfl | ⟨k, b, rfl⟩ := h <;> nofun

/-- Some sequence of the events that the loop issues leads from `s` to `t`. -/
def ScheduledRun (s t : State) : Prop :=
  ∃ es : List Event, (∀ e ∈ es, e.IsScheduled) ∧ runEvents es s = .next t

section
variable {s t u : State}

theorem ScheduledRun.refl (s : State) : ScheduledRun s s := ⟨[], nofun, rfl⟩

theorem ScheduledRun.trans (hst : ScheduledRun s t) (htu : ScheduledRun t u) : ScheduledRun s u := by
  obtain ⟨es, hes, hrun⟩ := hst
  obtain ⟨fs, hfs, hrun'⟩ := htu
  refine ⟨es ++ fs, List.forall_mem_append.2 ⟨hes, hfs⟩, ?_⟩
  rw [runEvents_append (fun e he => (hes e he).ne_quit) fs hrun, hrun']

theorem ScheduledRun.of_apply {e : Event} (he : e.IsScheduled) (h : e.apply s = .next t) : ScheduledRun s t := by
  refine ⟨[e], List.forall_mem_singleton.2 he, ?_⟩
  rw [runEvents_cons he.ne_quit, h]
  rfl

/-! ## The parts of the loop (R256, R260) -/

theorem scheduledRun_applyKeys (ks : List (KeyIx × Bool)) (s : State) : ScheduledRun s (applyKeys ks s) := by
  induction ks generalizing s with
  | nil => exact .refl _
  | cons kb ks ih =>
    obtain ⟨k, b⟩ := kb
    have hkey : ScheduledRun s (keySet k b s) := .of_apply (.inr (.inr ⟨k, b, rfl⟩)) rfl
    exact hkey.trans (ih _)

theorem scheduledRun_of_runCycles {n : Nat} (h : runCycles n s = .next t) : ScheduledRun s t := by
  induction n generalizing s with
  | zero =>
    cases h
    exact .refl _
  | succ n ih =>
    rw [runCycles] at h
    split at h
    · obtain ⟨u, hstep, hrest⟩ := andThen_eq_next h
      exact (ScheduledRun.of_apply (.inl rfl) hstep).trans (ih hrest)
    · cases h
      exact .refl _

theorem scheduledRun_of_runFrame {n : Nat} {ks : List (KeyIx × Bool)} (h : runFrame n ks s = .next t) :
    ScheduledRun s t := by
  obtain ⟨u, hcycles, htick⟩ := andThen_eq_next h
  exact ((scheduledRun_applyKeys ks s).trans (scheduledRun_of_runCycles hcycles)).trans
    (.of_apply (.inr (.inl rfl)) htick)

theorem scheduledRun_of_runSchedule {n : Nat} {frames : List (List (KeyIx × Bool))}
    (h : runSchedule n frames s = .next t) : ScheduledRun s t := by
  induction frames generalizing s with
  | nil =>
    cases h
    exact .refl _
  | cons ks rest ih =>
    rw [runSchedule] at h
    split at h
    · obtain ⟨u, hframe, hrest⟩ := andThen_eq_next h
      exact (scheduledRun_of_runFrame hframe).trans (ih hrest)
    · cases h
      exact .refl _

end

end Sys2Proof.Machine

namespace Sys2Proof.Safety

open Sys2Proof.Machine

/-! ## The statement about the schedule -/

/-- Settles O58: each turn is a run of key events, then of steps, then of one tick, and runs compose. -/
theorem scheduleIsAnInterleavingOfEvents : Obligations.ScheduleIsAnInterleavingOfEvents :=
  fun _ _ _ _ h => scheduledRun_of_runSchedule h

end Sys2Proof.Safety
end
